-- ==== Sys2Proof/Word.lean ====
section
/-! DEFINITION. The word types of the core: bytes, 16-bit words, 12-bit address fields, register indices
(spec/10_state.md R10, R12, R13; spec/30_encoding.md R61, R62). -/

namespace Sys2Proof

/-- A general register, a memory cell, a timer, an immediate `kk` (R10, R18, R16, R62). -/
abbrev Byte := BitVec 8

/-- An opcode word, I, PC, a stack slot (R60, R12, R13, R14). -/
abbrev Word := BitVec 16

/-- The immediate `nnn`, an unsigned 12-bit number (R62). -/
abbrev Addr12 := BitVec 12

/-- An index of a general register, 0..15: every value of a 4-bit field is one (R10). -/
abbrev Reg := Fin 16

end Sys2Proof
end

