-- ==== Sys2Proof/Syntax.lean ====
section
/-! DEFINITION. The 34 instructions of spec/30_encoding.md R65, one constructor per row of spec/opcode_table.json,
and the assembler's source lines of R70. -/

namespace Sys2Proof

/-- The closed set of instruction forms (R65, R71). Fields have the exact widths of R61, so every term is a
well-formed instruction. -/
inductive Instr where
  /-- 00E0, clear the display (R135). -/
  | cls
  /-- 00EE, return (R82). -/
  | ret
  /-- 1nnn, jump (R83). -/
  | jp (nnn : Addr12)
  /-- 2nnn, call (R84). -/
  | call (nnn : Addr12)
  /-- 3xkk, skip if Vx = kk (R85). -/
  | seImm (x : Reg) (kk : Byte)
  /-- 4xkk, skip if Vx /= kk (R86). -/
  | sneImm (x : Reg) (kk : Byte)
  /-- 5xy0, skip if Vx = Vy (R87). -/
  | seReg (x y : Reg)
  /-- 6xkk, load an immediate (R100). -/
  | ldImm (x : Reg) (kk : Byte)
  /-- 7xkk, add an immediate (R101). -/
  | addImm (x : Reg) (kk : Byte)
  /-- 8xy0, copy a register (R102). -/
  | ldReg (x y : Reg)
  /-- 8xy1 (R103). -/
  | orReg (x y : Reg)
  /-- 8xy2 (R104). -/
  | andReg (x y : Reg)
  /-- 8xy3 (R105). -/
  | xorReg (x y : Reg)
  /-- 8xy4, add with carry out (R106). -/
  | addReg (x y : Reg)
  /-- 8xy5, subtract Vy from Vx (R107). -/
  | subReg (x y : Reg)
  /-- 8xy6, shift right; the y field is decoded and ignored (R108, R67). -/
  | shr (x y : Reg)
  /-- 8xy7, subtract Vx from Vy into Vx (R109). -/
  | subnReg (x y : Reg)
  /-- 8xyE, shift left; the y field is decoded and ignored (R110, R67). -/
  | shl (x y : Reg)
  /-- 9xy0, skip if Vx /= Vy (R88). -/
  | sneReg (x y : Reg)
  /-- Annn, set I (R120). -/
  | ldI (nnn : Addr12)
  /-- Bnnn, jump to nnn + V0 (R89). -/
  | jpV0 (nnn : Addr12)
  /-- Cxkk, random byte AND kk (R111). -/
  | rnd (x : Reg) (kk : Byte)
  /-- Dxyn, draw n sprite rows at (Vx, Vy) (R136). -/
  | drw (x y n : Fin 16)
  /-- Ex9E, skip if key Vx is down (R150). -/
  | skp (x : Reg)
  /-- ExA1, skip if key Vx is not down (R151). -/
  | sknp (x : Reg)
  /-- Fx07, read the delay timer (R153). -/
  | ldFromDt (x : Reg)
  /-- Fx0A, wait for a key by re-execution (R152). -/
  | ldKey (x : Reg)
  /-- Fx15, write the delay timer (R154). -/
  | ldToDt (x : Reg)
  /-- Fx18, write the sound timer (R155). -/
  | ldToSt (x : Reg)
  /-- Fx1E, add Vx to I (R121). -/
  | addI (x : Reg)
  /-- Fx29, I becomes the address of glyph Vx (R122). -/
  | ldGlyph (x : Reg)
  /-- Fx33, store the three decimal digits of Vx (R123). -/
  | ldBcd (x : Reg)
  /-- Fx55, store V0..Vx (R125). -/
  | storeRegs (x : Reg)
  /-- Fx65, load V0..Vx (R126). -/
  | loadRegs (x : Reg)
  deriving DecidableEq, Repr

/-- The mnemonics of R70. -/
inductive Mnemonic where
  | cls | ret | jp | call | se | sne | ld | add | or | and | xor | sub | shr | subn | shl | rnd | drw | skp | sknp
  deriving DecidableEq, Repr

/-- The operand words of R70. Numbers are as the source line writes them, of any size. -/
inductive AsmOperand where
  /-- `V0` .. `VF`. -/
  | v (n : Nat)
  /-- A number: `kk`, `nnn` or `n`. -/
  | num (n : Nat)
  /-- The literal words `I`, `DT`, `ST`, `K`, `F`, `B`, `[I]`. -/
  | i | dt | st | k | f | b | atI
  deriving DecidableEq, Repr

/-- One source line: an instruction, or one of the data directives `DW`, `DB` (R70). -/
inductive AsmLine where
  | instr (m : Mnemonic) (ops : List AsmOperand)
  | dw (n : Nat)
  | db (n : Nat)
  deriving DecidableEq, Repr

end Sys2Proof
end

