-- ==== Sys2Proof/WellFormed.lean ====
section
/-! DEFINITION. Well-formedness. A term of `Instr` is well-formed by its types; what can be ill-formed is a source
line of R70, whose registers and numbers must fit and whose operands must have one of the listed shapes ("a number
that does not fit is an assembly error, not a truncation"). -/

namespace Sys2Proof

/-- Why a source line is refused (R70). -/
inductive AsmError where
  /-- A register that is none of V0..VF. -/
  | noSuchRegister
  /-- A number wider than its field (12 bits nnn, 8 bits kk, 4 bits n; 16 and 8 bits for DW and DB). -/
  | doesNotFit
  /-- The mnemonic has no form with these operands. -/
  | noSuchForm
  /-- The characters are no line: no such mnemonic, or an operand that is no word and no number. -/
  | unreadable
  deriving DecidableEq, Repr

/-- `V0` .. `VF` (R70). -/
def asmReg (n : Nat) : Except AsmError Reg :=
  if h : n < 16 then .ok ⟨n, h⟩ else .error .noSuchRegister

/-- A number that must fit w bits (R70). -/
def asmNum (w n : Nat) : Except AsmError (BitVec w) :=
  if n < 2 ^ w then .ok (BitVec.ofNat w n) else .error .doesNotFit

/-- The height of DRW, a number that must fit 4 bits (R70). -/
def asmHeight (n : Nat) : Except AsmError (Fin 16) :=
  if h : n < 16 then .ok ⟨n, h⟩ else .error .doesNotFit

/-- One register operand. -/
def asmX (f : Reg → Instr) (x : Nat) : Except AsmError Instr := return f (← asmReg x)

/-- Two register operands. -/
def asmXY (f : Reg → Reg → Instr) (x y : Nat) : Except AsmError Instr := return f (← asmReg x) (← asmReg y)

/-- A register and an 8-bit number. -/
def asmXK (f : Reg → Byte → Instr) (x kk : Nat) : Except AsmError Instr := return f (← asmReg x) (← asmNum 8 kk)

/-- A 12-bit number. -/
def asmN (f : Addr12 → Instr) (n : Nat) : Except AsmError Instr := return f (← asmNum 12 n)

/-- The instruction a source line names: "the same mnemonic with different operand shapes is a different
instruction"; `SHR Vx` and `SHL Vx` assemble with y = 0 (R70). -/
def assembleInstr : Mnemonic → List AsmOperand → Except AsmError Instr
  | .cls, [] => .ok .cls
  | .ret, [] => .ok .ret
  | .jp, [.num n] => asmN .jp n
  | .jp, [.v 0, .num n] => asmN .jpV0 n
  | .call, [.num n] => asmN .call n
  | .se, [.v x, .num kk] => asmXK .seImm x kk
  | .se, [.v x, .v y] => asmXY .seReg x y
  | .sne, [.v x, .num kk] => asmXK .sneImm x kk
  | .sne, [.v x, .v y] => asmXY .sneReg x y
  | .ld, [.v x, .num kk] => asmXK .ldImm x kk
  | .ld, [.v x, .v y] => asmXY .ldReg x y
  | .ld, [.i, .num n] => asmN .ldI n
  | .ld, [.v x, .dt] => asmX .ldFromDt x
  | .ld, [.v x, .k] => asmX .ldKey x
  | .ld, [.dt, .v x] => asmX .ldToDt x
  | .ld, [.st, .v x] => asmX .ldToSt x
  | .ld, [.f, .v x] => asmX .ldGlyph x
  | .ld, [.b, .v x] => asmX .ldBcd x
  | .ld, [.atI, .v x] => asmX .storeRegs x
  | .ld, [.v x, .atI] => asmX .loadRegs x
  | .add, [.v x, .num kk] => asmXK .addImm x kk
  | .add, [.v x, .v y] => asmXY .addReg x y
  | .add, [.i, .v x] => asmX .addI x
  | .or, [.v x, .v y] => asmXY .orReg x y
  | .and, [.v x, .v y] => asmXY .andReg x y
  | .xor, [.v x, .v y] => asmXY .xorReg x y
  | .sub, [.v x, .v y] => asmXY .subReg x y
  | .subn, [.v x, .v y] => asmXY .subnReg x y
  | .shr, [.v x] => asmX (fun r => .shr r 0) x
  | .shl, [.v x] => asmX (fun r => .shl r 0) x
  | .rnd, [.v x, .num kk] => asmXK .rnd x kk
  | .drw, [.v x, .v y, .num n] => return .drw (← asmReg x) (← asmReg y) (← asmHeight n)
  | .skp, [.v x] => asmX .skp x
  | .sknp, [.v x] => asmX .sknp x
  | _, _ => .error .noSuchForm

/-- A source line that assembles (R70). -/
def AsmLine.wellFormed : AsmLine → Bool
  | .instr m ops => (assembleInstr m ops).isOk
  | .dw n => n < 65536
  | .db n => n < 256

end Sys2Proof
end

