-- ==== Sys2Proof/Decode.lean ====
section
/-! DEFINITION. Decoding, total on every 16-bit word (spec/30_encoding.md R64 to R71), the encoder, the mask and
match table of R65, and the assembler and disassembler of R70. -/

namespace Sys2Proof

/-- What a word decodes to: one of the 34 instructions, or the unknown word by name (R71). -/
inductive Decoded where
  | instr (i : Instr)
  | unknown (w : Word)
  deriving DecidableEq, Repr

/-- The k-th 4-bit field of a word counted from bit 0, as an index 0..15 (R61). -/
def nibble (w : Word) (k : Nat) : Fin 16 := (w.extractLsb' (4 * k) 4).toFin

/-- x = op[11:8] (R61). -/
def fieldX (w : Word) : Reg := nibble w 2

/-- y = op[7:4] (R61). -/
def fieldY (w : Word) : Reg := nibble w 1

/-- n = op[3:0] (R61). -/
def fieldN (w : Word) : Fin 16 := nibble w 0

/-- kk = op[7:0] (R61). -/
def fieldKK (w : Word) : Byte := w.extractLsb' 0 8

/-- nnn = op[11:0] (R61). -/
def fieldNNN (w : Word) : Addr12 := w.extractLsb' 0 12

/-- Group 0: every word but 00E0 and 00EE is unknown; there is no machine-code call (R65, R68). -/
def decodeGroup0 (w : Word) : Decoded :=
  match w.toNat with
  | 0x00E0 => .instr .cls
  | 0x00EE => .instr .ret
  | _ => .unknown w

/-- Groups 5 and 9: the low digit must be 0 (R65, R66). -/
def decodeZeroLow (i : Instr) (w : Word) : Decoded :=
  match (fieldN w).val with
  | 0 => .instr i
  | _ => .unknown w

/-- Group 8, by its low digit (R65, R66). -/
def decodeGroup8 (w : Word) : Decoded :=
  match (fieldN w).val with
  | 0x0 => .instr (.ldReg (fieldX w) (fieldY w))
  | 0x1 => .instr (.orReg (fieldX w) (fieldY w))
  | 0x2 => .instr (.andReg (fieldX w) (fieldY w))
  | 0x3 => .instr (.xorReg (fieldX w) (fieldY w))
  | 0x4 => .instr (.addReg (fieldX w) (fieldY w))
  | 0x5 => .instr (.subReg (fieldX w) (fieldY w))
  | 0x6 => .instr (.shr (fieldX w) (fieldY w))
  | 0x7 => .instr (.subnReg (fieldX w) (fieldY w))
  | 0xE => .instr (.shl (fieldX w) (fieldY w))
  | _ => .unknown w

/-- Group E, by its low byte (R65, R66). -/
def decodeGroupE (w : Word) : Decoded :=
  match (fieldKK w).toNat with
  | 0x9E => .instr (.skp (fieldX w))
  | 0xA1 => .instr (.sknp (fieldX w))
  | _ => .unknown w

/-- Group F, by its low byte (R65, R66). -/
def decodeGroupF (w : Word) : Decoded :=
  match (fieldKK w).toNat with
  | 0x07 => .instr (.ldFromDt (fieldX w))
  | 0x0A => .instr (.ldKey (fieldX w))
  | 0x15 => .instr (.ldToDt (fieldX w))
  | 0x18 => .instr (.ldToSt (fieldX w))
  | 0x1E => .instr (.addI (fieldX w))
  | 0x29 => .instr (.ldGlyph (fieldX w))
  | 0x33 => .instr (.ldBcd (fieldX w))
  | 0x55 => .instr (.storeRegs (fieldX w))
  | 0x65 => .instr (.loadRegs (fieldX w))
  | _ => .unknown w

/-- Decode: pattern matching on the four 4-bit fields, a function of the word alone (R64, R65, R71). -/
def decode (w : Word) : Decoded :=
  match (nibble w 3).val with
  | 0x0 => decodeGroup0 w
  | 0x1 => .instr (.jp (fieldNNN w))
  | 0x2 => .instr (.call (fieldNNN w))
  | 0x3 => .instr (.seImm (fieldX w) (fieldKK w))
  | 0x4 => .instr (.sneImm (fieldX w) (fieldKK w))
  | 0x5 => decodeZeroLow (.seReg (fieldX w) (fieldY w)) w
  | 0x6 => .instr (.ldImm (fieldX w) (fieldKK w))
  | 0x7 => .instr (.addImm (fieldX w) (fieldKK w))
  | 0x8 => decodeGroup8 w
  | 0x9 => decodeZeroLow (.sneReg (fieldX w) (fieldY w)) w
  | 0xA => .instr (.ldI (fieldNNN w))
  | 0xB => .instr (.jpV0 (fieldNNN w))
  | 0xC => .instr (.rnd (fieldX w) (fieldKK w))
  | 0xD => .instr (.drw (fieldX w) (fieldY w) (fieldN w))
  | 0xE => decodeGroupE w
  | _ => decodeGroupF w

/-- The word of two bytes, the first in bits 15:8 (R43, R60). -/
def wordOfBytes (hi lo : Byte) : Word := hi ++ lo

/-- The two bytes of a word, the high byte first (R43, R60). -/
def bytesOfWord (w : Word) : List Byte := [w.extractLsb' 8 8, w.extractLsb' 0 8]

/-- A 4-bit field of a word. -/
def digit (n : Fin 16) : BitVec 4 := BitVec.ofFin n

/-- Format A: n1 and a 12-bit address (R63). -/
def formatA (n1 : BitVec 4) (nnn : Addr12) : Word := n1 ++ nnn

/-- Formats I and X: n1, a register, and a low byte that is an immediate or a function code (R63). -/
def formatI (n1 : BitVec 4) (x : Reg) (kk : Byte) : Word := n1 ++ (digit x ++ kk)

/-- Formats R and D: n1, two registers, and a low digit that is a function code or a height (R63). -/
def formatR (n1 : BitVec 4) (x y n : Fin 16) : Word := n1 ++ (digit x ++ (digit y ++ digit n))

/-- The word of an instruction, from the patterns of R65. -/
def encode : Instr → Word
  | .cls => 0x00E0#16
  | .ret => 0x00EE#16
  | .jp nnn => formatA 0x1#4 nnn
  | .call nnn => formatA 0x2#4 nnn
  | .seImm x kk => formatI 0x3#4 x kk
  | .sneImm x kk => formatI 0x4#4 x kk
  | .seReg x y => formatR 0x5#4 x y 0x0
  | .ldImm x kk => formatI 0x6#4 x kk
  | .addImm x kk => formatI 0x7#4 x kk
  | .ldReg x y => formatR 0x8#4 x y 0x0
  | .orReg x y => formatR 0x8#4 x y 0x1
  | .andReg x y => formatR 0x8#4 x y 0x2
  | .xorReg x y => formatR 0x8#4 x y 0x3
  | .addReg x y => formatR 0x8#4 x y 0x4
  | .subReg x y => formatR 0x8#4 x y 0x5
  | .shr x y => formatR 0x8#4 x y 0x6
  | .subnReg x y => formatR 0x8#4 x y 0x7
  | .shl x y => formatR 0x8#4 x y 0xE
  | .sneReg x y => formatR 0x9#4 x y 0x0
  | .ldI nnn => formatA 0xA#4 nnn
  | .jpV0 nnn => formatA 0xB#4 nnn
  | .rnd x kk => formatI 0xC#4 x kk
  | .drw x y n => formatR 0xD#4 x y n
  | .skp x => formatI 0xE#4 x 0x9E#8
  | .sknp x => formatI 0xE#4 x 0xA1#8
  | .ldFromDt x => formatI 0xF#4 x 0x07#8
  | .ldKey x => formatI 0xF#4 x 0x0A#8
  | .ldToDt x => formatI 0xF#4 x 0x15#8
  | .ldToSt x => formatI 0xF#4 x 0x18#8
  | .addI x => formatI 0xF#4 x 0x1E#8
  | .ldGlyph x => formatI 0xF#4 x 0x29#8
  | .ldBcd x => formatI 0xF#4 x 0x33#8
  | .storeRegs x => formatI 0xF#4 x 0x55#8
  | .loadRegs x => formatI 0xF#4 x 0x65#8

/-- One row of R65's table: a word w is the instruction when `w AND mask = match`. -/
structure Row where
  mask : Word
  bits : Word
  deriving DecidableEq, Repr

/-- The test of R65. -/
def Row.covers (r : Row) (w : Word) : Bool := w &&& r.mask == r.bits

/-- The mask and match columns of R65 for an instruction. -/
def rowOf : Instr → Row
  | .cls => ⟨0xFFFF#16, 0x00E0#16⟩
  | .ret => ⟨0xFFFF#16, 0x00EE#16⟩
  | .jp _ => ⟨0xF000#16, 0x1000#16⟩
  | .call _ => ⟨0xF000#16, 0x2000#16⟩
  | .seImm _ _ => ⟨0xF000#16, 0x3000#16⟩
  | .sneImm _ _ => ⟨0xF000#16, 0x4000#16⟩
  | .seReg _ _ => ⟨0xF00F#16, 0x5000#16⟩
  | .ldImm _ _ => ⟨0xF000#16, 0x6000#16⟩
  | .addImm _ _ => ⟨0xF000#16, 0x7000#16⟩
  | .ldReg _ _ => ⟨0xF00F#16, 0x8000#16⟩
  | .orReg _ _ => ⟨0xF00F#16, 0x8001#16⟩
  | .andReg _ _ => ⟨0xF00F#16, 0x8002#16⟩
  | .xorReg _ _ => ⟨0xF00F#16, 0x8003#16⟩
  | .addReg _ _ => ⟨0xF00F#16, 0x8004#16⟩
  | .subReg _ _ => ⟨0xF00F#16, 0x8005#16⟩
  | .shr _ _ => ⟨0xF00F#16, 0x8006#16⟩
  | .subnReg _ _ => ⟨0xF00F#16, 0x8007#16⟩
  | .shl _ _ => ⟨0xF00F#16, 0x800E#16⟩
  | .sneReg _ _ => ⟨0xF00F#16, 0x9000#16⟩
  | .ldI _ => ⟨0xF000#16, 0xA000#16⟩
  | .jpV0 _ => ⟨0xF000#16, 0xB000#16⟩
  | .rnd _ _ => ⟨0xF000#16, 0xC000#16⟩
  | .drw _ _ _ => ⟨0xF000#16, 0xD000#16⟩
  | .skp _ => ⟨0xF0FF#16, 0xE09E#16⟩
  | .sknp _ => ⟨0xF0FF#16, 0xE0A1#16⟩
  | .ldFromDt _ => ⟨0xF0FF#16, 0xF007#16⟩
  | .ldKey _ => ⟨0xF0FF#16, 0xF00A#16⟩
  | .ldToDt _ => ⟨0xF0FF#16, 0xF015#16⟩
  | .ldToSt _ => ⟨0xF0FF#16, 0xF018#16⟩
  | .addI _ => ⟨0xF0FF#16, 0xF01E#16⟩
  | .ldGlyph _ => ⟨0xF0FF#16, 0xF029#16⟩
  | .ldBcd _ => ⟨0xF0FF#16, 0xF033#16⟩
  | .storeRegs _ => ⟨0xF0FF#16, 0xF055#16⟩
  | .loadRegs _ => ⟨0xF0FF#16, 0xF065#16⟩

/-- The 34 rows of R65, in its order. -/
def opcodeTable : List Row :=
  [⟨0xFFFF#16, 0x00E0#16⟩, ⟨0xFFFF#16, 0x00EE#16⟩, ⟨0xF000#16, 0x1000#16⟩, ⟨0xF000#16, 0x2000#16⟩,
   ⟨0xF000#16, 0x3000#16⟩, ⟨0xF000#16, 0x4000#16⟩, ⟨0xF00F#16, 0x5000#16⟩, ⟨0xF000#16, 0x6000#16⟩,
   ⟨0xF000#16, 0x7000#16⟩] ++
  [⟨0xF00F#16, 0x8000#16⟩, ⟨0xF00F#16, 0x8001#16⟩, ⟨0xF00F#16, 0x8002#16⟩, ⟨0xF00F#16, 0x8003#16⟩,
   ⟨0xF00F#16, 0x8004#16⟩, ⟨0xF00F#16, 0x8005#16⟩, ⟨0xF00F#16, 0x8006#16⟩, ⟨0xF00F#16, 0x8007#16⟩,
   ⟨0xF00F#16, 0x800E#16⟩] ++
  [⟨0xF00F#16, 0x9000#16⟩, ⟨0xF000#16, 0xA000#16⟩, ⟨0xF000#16, 0xB000#16⟩, ⟨0xF000#16, 0xC000#16⟩,
   ⟨0xF000#16, 0xD000#16⟩, ⟨0xF0FF#16, 0xE09E#16⟩, ⟨0xF0FF#16, 0xE0A1#16⟩] ++
  [⟨0xF0FF#16, 0xF007#16⟩, ⟨0xF0FF#16, 0xF00A#16⟩, ⟨0xF0FF#16, 0xF015#16⟩, ⟨0xF0FF#16, 0xF018#16⟩,
   ⟨0xF0FF#16, 0xF01E#16⟩, ⟨0xF0FF#16, 0xF029#16⟩, ⟨0xF0FF#16, 0xF033#16⟩, ⟨0xF0FF#16, 0xF055#16⟩,
   ⟨0xF0FF#16, 0xF065#16⟩]

/-- The bytes a source line assembles to, the high byte of a word first (R70). -/
def assemble : AsmLine → Except AsmError (List Byte)
  | .instr m ops => return bytesOfWord (encode (← assembleInstr m ops))
  | .dw n => return bytesOfWord (← asmNum 16 n)
  | .db n => return [← asmNum 8 n]

/-- The operand word `Vx`. -/
def opV (x : Reg) : AsmOperand := .v x.val

/-- The operand word of a number. -/
def opN {w : Nat} (n : BitVec w) : AsmOperand := .num n.toNat

/-- The source line of an instruction; "a disassembler shows any y as `SHR Vx`" (R70, R67). -/
def disassemble : Instr → AsmLine
  | .cls => .instr .cls []
  | .ret => .instr .ret []
  | .jp nnn => .instr .jp [opN nnn]
  | .call nnn => .instr .call [opN nnn]
  | .seImm x kk => .instr .se [opV x, opN kk]
  | .sneImm x kk => .instr .sne [opV x, opN kk]
  | .seReg x y => .instr .se [opV x, opV y]
  | .ldImm x kk => .instr .ld [opV x, opN kk]
  | .addImm x kk => .instr .add [opV x, opN kk]
  | .ldReg x y => .instr .ld [opV x, opV y]
  | .orReg x y => .instr .or [opV x, opV y]
  | .andReg x y => .instr .and [opV x, opV y]
  | .xorReg x y => .instr .xor [opV x, opV y]
  | .addReg x y => .instr .add [opV x, opV y]
  | .subReg x y => .instr .sub [opV x, opV y]
  | .shr x _ => .instr .shr [opV x]
  | .subnReg x y => .instr .subn [opV x, opV y]
  | .shl x _ => .instr .shl [opV x]
  | .sneReg x y => .instr .sne [opV x, opV y]
  | .ldI nnn => .instr .ld [.i, opN nnn]
  | .jpV0 nnn => .instr .jp [.v 0, opN nnn]
  | .rnd x kk => .instr .rnd [opV x, opN kk]
  | .drw x y n => .instr .drw [opV x, opV y, .num n.val]
  | .skp x => .instr .skp [opV x]
  | .sknp x => .instr .sknp [opV x]
  | .ldFromDt x => .instr .ld [opV x, .dt]
  | .ldKey x => .instr .ld [opV x, .k]
  | .ldToDt x => .instr .ld [.dt, opV x]
  | .ldToSt x => .instr .ld [.st, opV x]
  | .addI x => .instr .add [.i, opV x]
  | .ldGlyph x => .instr .ld [.f, opV x]
  | .ldBcd x => .instr .ld [.b, opV x]
  | .storeRegs x => .instr .ld [.atI, opV x]
  | .loadRegs x => .instr .ld [opV x, .atI]

/-! ### The text of a source line (R70) -/

/-- Blanks between the words of a line. -/
def isBlank (c : Char) : Bool := c == ' ' || c == '\t'

/-- A text without the blanks at its ends. -/
def trimBlanks (cs : List Char) : List Char := ((cs.dropWhile isBlank).reverse.dropWhile isBlank).reverse

/-- The parts of a text between commas. -/
def splitCommas : List Char → List (List Char)
  | [] => [[]]
  | c :: cs =>
    match c == ',', splitCommas cs with
    | true, parts => [] :: parts
    | false, part :: parts => (c :: part) :: parts
    | false, [] => [[c]]

/-- A digit of a base up to 16. -/
def readDigit (base : Nat) (c : Char) : Option Nat :=
  let n := c.toNat
  let d := if 48 ≤ n ∧ n ≤ 57 then n - 48 else if 65 ≤ n ∧ n ≤ 70 then n - 55 else if 97 ≤ n ∧ n ≤ 102 then n - 87 else 16
  if d < base then some d else none

/-- A number written in a base, with at least one digit. -/
def readDigits (base : Nat) : List Char → Option Nat
  | [] => none
  | c :: cs => cs.foldl (fun acc c => do return base * (← acc) + (← readDigit base c)) (readDigit base c)

/-- A number, "decimal or `0x` hexadecimal". -/
def readNumber : List Char → Option Nat
  | '0' :: 'x' :: cs => readDigits 16 cs
  | cs => readDigits 10 cs

/-- An operand: `V` and one hexadecimal digit, a literal word, or a number. -/
def readOperand : List Char → Option AsmOperand
  | ['V', d] => (readDigit 16 d).map .v
  | ['I'] => some .i
  | ['D', 'T'] => some .dt
  | ['S', 'T'] => some .st
  | ['K'] => some .k
  | ['F'] => some .f
  | ['B'] => some .b
  | ['[', 'I', ']'] => some .atI
  | cs => (readNumber cs).map .num

/-- The mnemonics of R65's table, as written. -/
def readMnemonic : List Char → Option Mnemonic
  | ['C', 'L', 'S'] => some .cls
  | ['R', 'E', 'T'] => some .ret
  | ['J', 'P'] => some .jp
  | ['C', 'A', 'L', 'L'] => some .call
  | ['S', 'E'] => some .se
  | ['S', 'N', 'E'] => some .sne
  | ['L', 'D'] => some .ld
  | ['A', 'D', 'D'] => some .add
  | ['O', 'R'] => some .or
  | ['A', 'N', 'D'] => some .and
  | ['X', 'O', 'R'] => some .xor
  | ['S', 'U', 'B'] => some .sub
  | ['S', 'H', 'R'] => some .shr
  | ['S', 'U', 'B', 'N'] => some .subn
  | ['S', 'H', 'L'] => some .shl
  | ['R', 'N', 'D'] => some .rnd
  | ['D', 'R', 'W'] => some .drw
  | ['S', 'K', 'P'] => some .skp
  | ['S', 'K', 'N', 'P'] => some .sknp
  | _ => none

/-- The operands of a line, none or some separated by commas. -/
def readOperands (cs : List Char) : Option (List AsmOperand) :=
  match trimBlanks cs with
  | [] => some []
  | cs => (splitCommas cs).mapM fun part => readOperand (trimBlanks part)

/-- A line: a mnemonic or a directive, then its operands (R70). DESIGN CHOICE (log entry 20): R70 shows the directives as
`DW 0xhhhh` and `DB 0xhh`; here their operand is any number of R70, decimal or hexadecimal with any count of digits, that
fits. -/
def readLine (cs : List Char) : Option AsmLine :=
  let line := trimBlanks cs
  let word := line.takeWhile fun c => !isBlank c
  let rest := line.dropWhile fun c => !isBlank c
  match word, readOperands rest with
  | ['D', 'W'], some [.num n] => some (.dw n)
  | ['D', 'B'], some [.num n] => some (.db n)
  | word, some ops => (readMnemonic word).map fun m => .instr m ops
  | _, none => none

/-- The bytes the text of a source line assembles to (R70). -/
def assembleText (cs : List Char) : Except AsmError (List Byte) :=
  match readLine cs with
  | some line => assemble line
  | none => .error .unreadable

/-- The word made of the low `nbits` bits of a number, the bits above being 0: one 16-bit word is the longest
instruction (R60). -/
def tableWord (nbits w : Nat) : Word := BitVec.ofNat 16 (w % 2 ^ nbits)

/-- The instruction the decoder reads from the bytes of a table word, laid out high byte first (R43); none where the
word is unknown. -/
def decodeTableWord (nbits w : Nat) : Option Instr :=
  match bytesOfWord (tableWord nbits w) with
  | [hi, lo] =>
    match decode (wordOfBytes hi lo) with
    | .instr i => some i
    | .unknown _ => none
  | _ => none

end Sys2Proof
end

