-- ==== Sys2Proof/Config.lean ====
section
/-! DEFINITION. The one free value of the specification. The sizes of spec/00_scope.md R7 are all fixed and stand as
numbers where they are used, each beside the rule that gives it. Of R7's four OPEN parameters RAND is here; GLYPHS, with
its default table, is in Machine/Ops.lean; INSTR_RATE and END_OF_RUN have no place in the machine, since no rule depends
on the first and the second is a claim's own choice (R198, R203). -/

namespace Sys2Proof.Config

/-- RAND: the n-th random byte the driver's source supplies when the driver has put no byte into the queue of State
(R111, decision D12: "any value 0..255, a fresh draw each time"). It has no body, so no proof can rest on a value of it.
Log entry 2. -/
opaque randByte : Nat → Byte

end Sys2Proof.Config
end

