-- ==== Sys2Proof/Machine/State.lean ====
section
/-! DEFINITION. The state of the core, as plain data: the tuple of spec/10_state.md and, below it, the model's own
three fields (the output of the last STEP and the random-byte input), the reasons a step can stop, and the state
after reset. -/

namespace Sys2Proof.Machine

/-- The fatal fault kinds of spec/60_exceptions.md R165, the values of the FAULT latch. Raising one is a NEXT state
(R174: HALT is set, FAULT records the kind): no step answers `Host.Outcome.fault`. Safe: the machine takes no further
step (R175). -/
inductive Fault where
  /-- Code 1: the fetch, Dxyn, Fx33, Fx55 and Fx65, when an address is past 4095 (R166). -/
  | addressOutOfRange
  /-- Code 2: 2nnn with 16 addresses stored (R167). -/
  | stackOverflow
  /-- Code 3: 00EE with none stored (R168). -/
  | stackUnderflow
  /-- Code 4: LOAD_PROGRAM with more than 3584 bytes; no STEP raises it (R169). -/
  | capacityError
  /-- Code 5: Ex9E and ExA1 with Vx above 15 (R170, decision D7). -/
  | keyIndexOutOfRange
  deriving DecidableEq, Repr

/-- Why a step is refused. -/
inductive Refusal where
  /-- Raised by an arm of exec that has no meaning yet. Every arm has its meaning, so nothing raises it. Safe. -/
  | notModelled (mnemonic : String)
  /-- Raised by `step` alone, in a halted machine: "refused: the result is Refused, no state changes" (R175,
  decision D2). Safe. -/
  | halted
  deriving DecidableEq, Repr

/-- The bytes of MEM that differ from what an unlisted address reads as, addresses rising (R18, R40). -/
abbrev Memory := List Host.Cell

/-- DISP, 2048 one-bit cells: bit k is DISP[k], and cell (cx, cy) is at index cy * 64 + cx, column 0 the left edge and row
0 the top (R19, R23). -/
abbrev Display := BitVec 2048

/-- KEYS: true is "held" (R20). -/
abbrev Keys := Vector Bool 16

/-- The state of the core: `( V, I, PC, STACK, SP, DT, ST, MEM, DISP, KEYS, HALT, FAULT )` (spec/10_state.md), then
the model's own fields `event`, `rands` and `draws`, which are no state of the core (R22; log entries 1 and 2). -/
structure State where
  /-- V0..VF (R10, R11). -/
  v : Vector Byte 16
  /-- The index register I (R12). -/
  i : Word
  /-- The program counter; between two STEPs the address of the next instruction (R13). -/
  pc : Word
  /-- STACK[0..15], a store of its own (R14). -/
  stack : Vector Word 16
  /-- SP, 0..16: how many addresses are stored (R15). -/
  sp : Fin 17
  /-- DT, the delay timer (R16). -/
  dt : Byte
  /-- ST, the sound timer (R17). -/
  st : Byte
  /-- MEM (R18). -/
  mem : Memory
  /-- DISP (R19). -/
  disp : Display
  /-- KEYS (R20). -/
  keys : Keys
  /-- HALT: a fatal fault has happened (R21). -/
  halt : Bool
  /-- FAULT: its kind, none for "None" (R21). -/
  fault : Option Fault
  /-- The model's own: the UnknownOpcode event that the last STEP reported, none if it reported none. An output port,
  written anew by every STEP and read by no instruction (R22 (e), R171; log entry 1). -/
  event : Option Word
  /-- The model's own: random bytes the driver has supplied for the coming draws, first first (R3, R111; log entry 2). -/
  rands : List Byte
  /-- The model's own: how many draws the driver's source has answered with its free value (R111; log entry 2). -/
  draws : Nat
  deriving DecidableEq, Repr

/-- The state after reset, which is NEW followed by INITIALIZE (decision D15): the last column of R23's table. Memory
lists nothing: an unlisted address reads as its reset contents, the glyph set at 0..79 and 0 above (R23, R53). -/
def State.reset : State where
  v := Vector.replicate 16 0
  i := 0
  pc := 512
  stack := Vector.replicate 16 0
  sp := 0
  dt := 0
  st := 0
  mem := []
  disp := 0
  keys := Vector.replicate 16 false
  halt := false
  fault := none
  event := none
  rands := []
  draws := 0

end Sys2Proof.Machine
end

