-- ==== Sys2Proof/Machine/Ops.lean ====
section
/-! DEFINITION. The named operations the meanings share: memory (spec/20_memory.md), the fetch (R64), raising a fault
(R174), the stack (R80), the program counter (R81, R152), and the random draw (R111). -/

namespace Sys2Proof.Machine

/-- What a step answers. -/
abbrev Result := Host.Outcome State Fault Refusal

/-! ### The glyph set and memory -/

/-- GLYPHS, the 80 bytes INITIALIZE writes at 0..79, five to a glyph, top row first (R53). The layout and the first
byte 0xF0 are the source's; the other 79 bytes are R53's default, supplied "from general knowledge, not in source".
PRESUMED, unsafe: log entry 3. -/
def glyphs : List Byte :=
  [0xF0, 0x90, 0x90, 0x90, 0xF0] ++ [0x20, 0x60, 0x20, 0x20, 0x70] ++
  [0xF0, 0x10, 0xF0, 0x80, 0xF0] ++ [0xF0, 0x10, 0xF0, 0x10, 0xF0] ++
  [0x90, 0x90, 0xF0, 0x10, 0x10] ++ [0xF0, 0x80, 0xF0, 0x10, 0xF0] ++
  [0xF0, 0x80, 0xF0, 0x90, 0xF0] ++ [0xF0, 0x10, 0x20, 0x40, 0x40] ++
  [0xF0, 0x90, 0xF0, 0x90, 0xF0] ++ [0xF0, 0x90, 0xF0, 0x10, 0xF0] ++
  [0xF0, 0x90, 0xF0, 0x90, 0x90] ++ [0xE0, 0x90, 0xE0, 0x90, 0xE0] ++
  [0xF0, 0x80, 0x80, 0x80, 0xF0] ++ [0xE0, 0x90, 0x90, 0x90, 0xE0] ++
  [0xF0, 0x80, 0xF0, 0x80, 0xF0] ++ [0xF0, 0x80, 0xF0, 0x80, 0x80]

/-- What an unlisted address reads as: its contents after reset, the glyph set at 0..79 and 0 above (R23, last
column). -/
def resetByte (a : Nat) : Byte := glyphs.getD a 0

/-- The canonical form: addresses strictly rising, all of them in MEM (R40), no entry equal to what an unlisted
address reads as. Equal memories are then equal lists. -/
abbrev Memory.wf (m : Memory) : Prop :=
  m.Pairwise (fun c d => c.1 < d.1) ∧ ∀ c ∈ m, c.1 < 4096 ∧ c.2 ≠ resetByte c.1

/-- `MEM[a]` for an address inside MEM (R18, R46). -/
def Memory.read : Memory → Nat → Byte
  | [], a => resetByte a
  | c :: m, a => if c.1 = a then c.2 else Memory.read m a

/-- `MEM[a] <- b` for an address inside MEM; the canonical form is kept (R41). -/
def Memory.write : Memory → Nat → Byte → Memory
  | [], a, b => if b = resetByte a then [] else [(a, b)]
  | c :: m, a, b =>
    if c.1 < a then c :: Memory.write m a b
    else if c.1 = a then (if b = resetByte a then m else (a, b) :: m)
    else if b = resetByte a then c :: m else (a, b) :: c :: m

/-- The bytes of a list to a, a + 1, ..., in ascending order (R45). -/
def Memory.writeBytes : Memory → Nat → List Byte → Memory
  | m, _, [] => m
  | m, a, b :: bs => Memory.writeBytes (m.write a b) (a + 1) bs

/-- The n bytes at a, a + 1, ... (R45). -/
def Memory.readBytes (m : Memory) (a n : Nat) : List Byte := (List.range n).map fun k => m.read (a + k)

/-- SpanCheck passes: `addr + len` is formed without wrap and is at most 4096 (R42). For a span of one byte this is the
test of `MemRead(addr, 1)` and `MemWrite(addr, 1, v)` (R41). -/
abbrev spanOk (addr len : Nat) : Prop := addr + len ≤ 4096

/-! ### Faults -/

/-- The state a fatal fault leaves: HALT and FAULT are set and nothing else is written (R174, R21). -/
def latch (k : Fault) (s : State) : State := { s with halt := true, fault := some k }

/-- `raise K`, the one way a fault is taken. There is no handler and no vector, nothing is saved, and PC stays where
the fetch left it (R174); the next STEP is refused (R175). -/
def raise (k : Fault) (s : State) : Result := .next (latch k s)

/-- The numeric code of FAULT (R165, decision D3). -/
def faultCode : Option Fault → Nat
  | none => 0
  | some .addressOutOfRange => 1
  | some .stackOverflow => 2
  | some .stackUnderflow => 3
  | some .capacityError => 4
  | some .keyIndexOutOfRange => 5

/-- An operation that has failed its one test raises k; one that has passed it leaves its state (R173). -/
def orRaise (k : Fault) (s : State) : Option State → Result
  | some t => .next t
  | none => raise k s

/-! ### Fetch and program counter -/

/-- `MemRead(PC, 2)`: the byte at PC in bits 15:8, the next in bits 7:0; none when PC + 1 is past 4095 (R41, R43). -/
def fetchWord (s : State) : Option Word :=
  if s.pc.toNat + 1 ≤ 4095 then
    some (wordOfBytes (s.mem.read s.pc.toNat) (s.mem.read (s.pc.toNat + 1)))
  else none

/-- A STEP begins with no event reported (log entry 1). -/
def clearEvent (s : State) : State := { s with event := none }

/-- The state the execute phase starts from: PC is the post-fetch PC (R64, R13). -/
def afterFetch (s : State) : State := { s with pc := s.pc + 2, event := none }

/-- `report UnknownOpcode(op)`: an output of this STEP; no state of the core changes (R66, R171). -/
def reportUnknown (w : Word) (s : State) : State := { s with event := some w }

/-- `pc <- target` (R9). -/
def jump (target : Word) (s : State) : State := { s with pc := target }

/-- `Skip()`: PC + 2, with no bounds test (R81). -/
def skip (s : State) : State := { s with pc := s.pc + 2 }

/-- Skip when a condition holds (R85 to R88, R150, R151). -/
def skipIf (c : Bool) (s : State) : State := if c then skip s else s

/-- Rewind: PC - 2, the address of the instruction itself (R152). -/
def rewind (s : State) : State := { s with pc := s.pc - 2 }

/-! ### The return-address stack -/

/-- `Push(a)`; none when 16 addresses are stored already, and then nothing is written (R80). -/
def push (a : Word) (s : State) : Option State :=
  if h : s.sp.val < 16 then
    some { s with stack := s.stack.set s.sp.val a h, sp := ⟨s.sp.val + 1, by omega⟩ }
  else none

/-- `Pop()`; none when no address is stored. The slot keeps its content (R80, decision D21). -/
def pop (s : State) : Option (Word × State) :=
  if h : 0 < s.sp.val then
    have : s.sp.val - 1 < 16 := by omega
    some (s.stack[s.sp.val - 1], { s with sp := ⟨s.sp.val - 1, by omega⟩ })
  else none

/-! ### The random byte -/

/-- One draw: the byte the driver has put at the head of the queue, or, where it has put none, the next free value
(R111, decision D12; log entry 2). -/
def drawByte (s : State) : Byte × State :=
  match s.rands with
  | r :: rs => (r, { s with rands := rs })
  | [] => (Config.randByte s.draws, { s with draws := s.draws + 1 })

end Sys2Proof.Machine
end

