-- ==== Sys2Proof/Machine/Operands.lean ====
section
/-! DEFINITION. Operands: the general registers, the immediates, the effective address, the key index, and the
register block of Fx55 and Fx65. There is no other operand form (spec/30_encoding.md R62, spec/42_index_memory.md
R124). -/

namespace Sys2Proof.Machine

/-- VF is V[15] (R11). -/
def vf : Reg := 15

/-- `V[x]`; no register is hard-wired (R10). -/
def getV (s : State) (x : Reg) : Byte := s.v[x]

/-- `V[x] <- b` (R10). -/
def setV (x : Reg) (b : Byte) (s : State) : State := { s with v := s.v.set x.val b }

/-- `zext_16` of a register or of kk (R62). -/
def zext8 (b : Byte) : Word := b.setWidth 16

/-- `zext_16(nnn)` (R62). -/
def zext12 (n : Addr12) : Word := n.setWidth 16

/-- `I <- a` (R12). -/
def setI (a : Word) (s : State) : State := { s with i := a }

/-- The effective address of byte k of a transfer, `I + k` on natural numbers with no reduction (R124, decision D9). -/
def ea (s : State) (k : Nat) : Nat := s.i.toNat + k

/-- `KeyIdx(v)`: v when v <= 15; none for a key that does not exist (R156, decision D7). -/
def keyIdx (b : Byte) : Option (Fin 16) := if h : b.toNat < 16 then some ⟨b.toNat, h⟩ else none

/-- `min { k | KEYS[k] = 1 }`, none when no key is down (R152). -/
def lowestKey (ks : Keys) : Option (Fin 16) := (List.finRange 16).find? fun k => ks[k]

/-- `V[0], ..., V[x]`, V0 first (R125). -/
def regBlock (s : State) (x : Reg) : List Byte := (List.finRange 16).take (x.val + 1) |>.map (getV s)

/-- `V[k] <- MEM[I + k]` for k = 0..x; the registers above x keep their values (R126). -/
def loadBlock (s : State) (x : Reg) : State :=
  { s with v := Vector.ofFn fun k : Fin 16 => if k.val ≤ x.val then s.mem.read (ea s k.val) else getV s k }

/-- The three decimal digits of a byte, hundreds first, with integer division (R123). -/
def bcdDigits (b : Byte) : List Byte :=
  [BitVec.ofNat 8 (b.toNat / 100), BitVec.ofNat 8 (b.toNat / 10 % 10), BitVec.ofNat 8 (b.toNat % 10)]

end Sys2Proof.Machine
end

