-- ==== Sys2Proof/Machine/Flags.lean ====
section
/-! DEFINITION. The values the six flag-writing instructions give VF, and the arithmetic beside them
(spec/10_state.md R11, spec/41_alu.md R106 to R113). There is no flag register apart from VF. -/

namespace Sys2Proof.Machine

/-- A flag is 0 or 1 (R11). -/
def flag (c : Bool) : Byte := if c then 1 else 0

/-- `(a + b) mod 256` (R113). -/
def addByte (a b : Byte) : Byte := BitVec.ofNat 8 (a.toNat + b.toNat)

/-- `(a - b) mod 256`, which is a - b + 256 when a < b (R113). -/
def subByte (a b : Byte) : Byte := BitVec.ofNat 8 (a.toNat + 256 - b.toNat)

/-- Carry out: 1 when the 9-bit sum exceeds 255 (R106). -/
def carry (a b : Byte) : Byte := flag (255 < a.toNat + b.toNat)

/-- NOT borrow of a - b: 1 when a >= b (R107, R109). -/
def notBorrow (a b : Byte) : Byte := flag (b.toNat ≤ a.toNat)

/-- The bit SHR shifts out (R108). -/
def bitOutRight (a : Byte) : Byte := flag (a.getLsbD 0)

/-- The bit SHL shifts out (R110). -/
def bitOutLeft (a : Byte) : Byte := flag (a.getLsbD 7)

/-- 8xy4, 8xy5, 8xy7: the result into Vx, THEN the flag into VF, so that the flag survives when x = 15 (R112, decision
D6). -/
def resultThenFlag (x : Reg) (result f : Byte) (s : State) : State := setV vf f (setV x result s)

/-- 8xy6, 8xyE: the flag into VF, THEN the result into Vx, so that the result survives when x = 15 (R112, decision
D6). -/
def flagThenResult (x : Reg) (result f : Byte) (s : State) : State := setV x result (setV vf f s)

end Sys2Proof.Machine
end

