-- ==== Sys2Proof/Machine/Alu.lean ====
section
/-! DEFINITION. Register load, arithmetic, logic, shift, random (spec/41_alu.md). Every operand is read from the state
before the instruction (R112). -/

namespace Sys2Proof.Machine

/-- 6xkk (R100). -/
def execLdImm (x : Reg) (kk : Byte) (s : State) : Result := .next (setV x kk s)

/-- 7xkk: no flag, even on wrap-around (R101). -/
def execAddImm (x : Reg) (kk : Byte) (s : State) : Result := .next (setV x (addByte (getV s x) kk) s)

/-- 8xy0 (R102). -/
def execLdReg (x y : Reg) (s : State) : Result := .next (setV x (getV s y) s)

/-- 8xy1: VF is not written (R103). -/
def execOrReg (x y : Reg) (s : State) : Result := .next (setV x (getV s x ||| getV s y) s)

/-- 8xy2: VF is not written (R104). -/
def execAndReg (x y : Reg) (s : State) : Result := .next (setV x (getV s x &&& getV s y) s)

/-- 8xy3: VF is not written (R105). -/
def execXorReg (x y : Reg) (s : State) : Result := .next (setV x (getV s x ^^^ getV s y) s)

/-- 8xy4 (R106). -/
def execAddReg (x y : Reg) (s : State) : Result :=
  .next (resultThenFlag x (addByte (getV s x) (getV s y)) (carry (getV s x) (getV s y)) s)

/-- 8xy5 (R107). -/
def execSubReg (x y : Reg) (s : State) : Result :=
  .next (resultThenFlag x (subByte (getV s x) (getV s y)) (notBorrow (getV s x) (getV s y)) s)

/-- 8xy6: Vx in place; y takes no part (R108, R67). -/
def execShr (x _y : Reg) (s : State) : Result :=
  .next (flagThenResult x (getV s x >>> 1) (bitOutRight (getV s x)) s)

/-- 8xy7 (R109). -/
def execSubnReg (x y : Reg) (s : State) : Result :=
  .next (resultThenFlag x (subByte (getV s y) (getV s x)) (notBorrow (getV s y) (getV s x)) s)

/-- 8xyE: Vx in place; y takes no part (R110, R67). -/
def execShl (x _y : Reg) (s : State) : Result :=
  .next (flagThenResult x (getV s x <<< 1) (bitOutLeft (getV s x)) s)

/-- Cxkk: the random byte handed to this STEP AND kk (R111). -/
def execRnd (x : Reg) (kk : Byte) (s : State) : Result :=
  .next (setV x ((drawByte s).1 &&& kk) (drawByte s).2)

end Sys2Proof.Machine
end

