-- ==== Sys2Proof/Machine/Control.lean ====
section
/-! DEFINITION. Control transfer (spec/40_control_flow.md): RET, JP, CALL, the four register skips, JP V0. PC is the
post-fetch PC when a meaning starts (R64). -/

namespace Sys2Proof.Machine

/-- 00EE: `pc <- Pop()`; StackUnderflow when SP = 0 (R82). -/
def execRet (s : State) : Result := orRaise .stackUnderflow s ((pop s).map fun p => jump p.1 p.2)

/-- 1nnn: `pc <- nnn`, with no test of nnn (R83). -/
def execJp (nnn : Addr12) (s : State) : Result := .next (jump (zext12 nnn) s)

/-- 2nnn: `Push(PC); pc <- nnn`; StackOverflow when SP = 16, and then PC is not set (R84). -/
def execCall (nnn : Addr12) (s : State) : Result :=
  orRaise .stackOverflow s ((push s.pc s).map (jump (zext12 nnn)))

/-- 3xkk (R85). -/
def execSeImm (x : Reg) (kk : Byte) (s : State) : Result := .next (skipIf (getV s x == kk) s)

/-- 4xkk (R86). -/
def execSneImm (x : Reg) (kk : Byte) (s : State) : Result := .next (skipIf (getV s x != kk) s)

/-- 5xy0 (R87). -/
def execSeReg (x y : Reg) (s : State) : Result := .next (skipIf (getV s x == getV s y) s)

/-- 9xy0 (R88). -/
def execSneReg (x y : Reg) (s : State) : Result := .next (skipIf (getV s x != getV s y) s)

/-- Bnnn: `pc <- nnn + V0`, always V0, with no mask (R89). -/
def execJpV0 (nnn : Addr12) (s : State) : Result := .next (jump (zext12 nnn + zext8 (getV s 0)) s)

end Sys2Proof.Machine
end

