-- ==== Sys2Proof/Machine/Display.lean ====
section
/-! DEFINITION. The display and the sprite compositor (spec/43_display.md). -/

namespace Sys2Proof.Machine

/-- A blank display (R135). -/
def blankDisplay : Display := 0

/-- The index of a cell (R19). -/
def cellIndex (cx cy : Nat) : Nat := cy * 64 + cx

/-- (cx, cy) is on the display (R19, R137). -/
abbrev onDisplay (cx cy : Nat) : Prop := cx ≤ 63 ∧ cy ≤ 31

/-- `DISP[cy * 64 + cx]`; false for a coordinate that is off the display and so has no cell (R19). -/
def cell (d : Display) (cx cy : Nat) : Bool := if onDisplay cx cy then d.getLsbD (cellIndex cx cy) else false

/-- `DISP[k] <- b` (R19). -/
def setCell (d : Display) (k : Nat) (b : Bool) : Display :=
  if b then d ||| BitVec.twoPow 2048 k else d &&& ~~~ BitVec.twoPow 2048 k

/-- The display and the collision so far, while a sprite is drawn (R137). -/
abbrev Canvas := Display × Bool

/-- One set pixel of the sprite at (px, py): clipped when off the display, else XORed, and a collision when the cell
was set (R137). -/
def plot (px py : Nat) (a : Canvas) : Canvas :=
  if onDisplay px py then
    if a.1.getLsbD (cellIndex px py) then (setCell a.1 (cellIndex px py) false, true)
    else (setCell a.1 (cellIndex px py) true, a.2)
  else a

/-- One sprite row at (ox, py): columns left to right, bit 7 first (R137). -/
def plotRow (b : Byte) (ox py : Nat) (a : Canvas) : Canvas :=
  (List.range 8).foldl (fun acc c => if b.getLsbD (7 - c) then plot (ox + c) py acc else acc) a

/-- The sprite's rows from top to bottom (R137). -/
def plotRows : List Byte → Nat → Nat → Canvas → Canvas
  | [], _, _, a => a
  | b :: bs, ox, py, a => plotRows bs ox (py + 1) (plotRow b ox py a)

/-- `Composite(vx, vy, sprite)`: the origin wraps once, the pixels are clipped (R137). -/
def composite (vx vy : Byte) (sprite : List Byte) (d : Display) : Canvas :=
  plotRows sprite (vx.toNat % 64) (vy.toNat % 32) (d, false)

/-- 00E0: VF is not written (R135). -/
def execCls (s : State) : Result := .next { s with disp := blankDisplay }

/-- Dxyn: the sprite is read before any pixel changes; VF is always written, after the coordinates are read (R136). -/
def execDrw (x y n : Fin 16) (s : State) : Result :=
  if spanOk (ea s 0) n.val then
    let r := composite (getV s x) (getV s y) (s.mem.readBytes (ea s 0) n.val) s.disp
    .next (setV vf (flag r.2) { s with disp := r.1 })
  else raise .addressOutOfRange s

end Sys2Proof.Machine
end

