-- ==== Sys2Proof/Machine/IndexMemory.lean ====
section
/-! DEFINITION. The index register and memory transfer (spec/42_index_memory.md). No transfer changes I (R124), and
the whole span is checked before the first byte moves (R42). -/

namespace Sys2Proof.Machine

/-- Annn (R120). -/
def execLdI (nnn : Addr12) (s : State) : Result := .next (setI (zext12 nnn) s)

/-- Fx1E: `I <- (I + Vx) mod 65536`; VF is not written (R121). -/
def execAddI (x : Reg) (s : State) : Result := .next (setI (s.i + zext8 (getV s x)) s)

/-- Fx29: `I <- Vx * 5`, with no mask of Vx (R122). -/
def execLdGlyph (x : Reg) (s : State) : Result :=
  .next (setI (zext8 (getV s x) * 5) s)

/-- A store of some bytes at I, the span checked first (R42, R123, R125). -/
def storeAtI (bytes : List Byte) (s : State) : Result :=
  if spanOk (ea s 0) bytes.length then .next { s with mem := s.mem.writeBytes (ea s 0) bytes }
  else raise .addressOutOfRange s

/-- Fx33: the three decimal digits of Vx (R123). -/
def execLdBcd (x : Reg) (s : State) : Result := storeAtI (bcdDigits (getV s x)) s

/-- Fx55: V0..Vx (R125). -/
def execStoreRegs (x : Reg) (s : State) : Result := storeAtI (regBlock s x) s

/-- Fx65: V0..Vx (R126). -/
def execLoadRegs (x : Reg) (s : State) : Result :=
  if spanOk (ea s 0) (x.val + 1) then .next (loadBlock s x) else raise .addressOutOfRange s

end Sys2Proof.Machine
end

