-- ==== Sys2Proof/Machine/KeysTimers.lean ====
section
/-! DEFINITION. Keys and timers (spec/44_keys_timers.md). -/

namespace Sys2Proof.Machine

/-- A skip on the state of key Vx; KeyIndexOutOfRange when there is no such key (R150, R151, R156). -/
def skipOnKey (x : Reg) (down : Bool) (s : State) : Result :=
  orRaise .keyIndexOutOfRange s ((keyIdx (getV s x)).map fun k => skipIf (s.keys[k] == down) s)

/-- Ex9E (R150). -/
def execSkp (x : Reg) (s : State) : Result := skipOnKey x true s

/-- ExA1 (R151). -/
def execSknp (x : Reg) (s : State) : Result := skipOnKey x false s

/-- Fx07 (R153). -/
def execLdFromDt (x : Reg) (s : State) : Result := .next (setV x s.dt s)

/-- Fx0A: the lowest key that is down, else rewind, so that the same instruction is fetched again (R152). -/
def execLdKey (x : Reg) (s : State) : Result :=
  match lowestKey s.keys with
  | some k => .next (setV x (BitVec.ofNat 8 k.val) s)
  | none => .next (rewind s)

/-- Fx15 (R154). -/
def execLdToDt (x : Reg) (s : State) : Result := .next { s with dt := getV s x }

/-- Fx18 (R155). -/
def execLdToSt (x : Reg) (s : State) : Result := .next { s with st := getV s x }

end Sys2Proof.Machine
end

