-- ==== Sys2Proof/Machine/Cycle.lean ====
section
/-! DEFINITION. The parts of STEP around exec (spec/30_encoding.md R64, spec/60_exceptions.md R173, R175). -/

namespace Sys2Proof.Machine

/-- "While HALT = 1 ... refused: the result is Refused, no state changes" (R175). -/
def haltedStep (_s : State) : Result := .refused .halted

/-- The fetch has failed its bounds test: the word is never read and PC is not advanced (R41, R64, R166). -/
def fetchFault (s : State) : Result := raise .addressOutOfRange (clearEvent s)

/-- The word has been fetched: an unknown word is reported and nothing else happens, PC staying advanced (R66, R171); an
instruction runs from the post-fetch state (R64). -/
def runWord (w : Word) (s : State) : Result :=
  match decode w with
  | .unknown w => .next (reportUnknown w (afterFetch s))
  | .instr i => exec i (afterFetch s)

/-- Where the next fetch reads: PC, or, where no word can be fetched at PC, the entry point (log entry 6). -/
def fetchablePc (s : State) : Word := if s.pc.toNat + 1 ≤ 4095 then s.pc else 512

/-- s running, with the bytes of a word stored where the next fetch reads (log entry 6). -/
def placeWord (w : Word) (s : State) : State :=
  { s with
    pc := fetchablePc s
    mem := s.mem.writeBytes (fetchablePc s).toNat (bytesOfWord w)
    halt := false
    fault := none }

end Sys2Proof.Machine
end

