-- ==== Sys2Proof/Machine/Step.lean ====
section
/-! DEFINITION. STEP: fetch, decode and execute of one instruction (spec/30_encoding.md R64; the order of the tests is
spec/60_exceptions.md R173). -/

namespace Sys2Proof.Machine

/-- STEP: first the HALT latch, then the fetch, then decode and execute (R64, R173). -/
def step (s : State) : Host.Outcome State Fault Refusal :=
  if s.halt then haltedStep s
  else
    match fetchWord s with
    | none => fetchFault s
    | some w => runWord w s

/-- s with the instruction of a table word stored where step fetches next, so that the very next step runs it. It stands
for LOAD_PROGRAM of that one word (log entry 6). -/
def State.withFetchWord (s : State) (nbits w : Nat) : State := placeWord (tableWord nbits w) s

end Sys2Proof.Machine
end

