-- ==== Sys2Proof/Machine/Driver.lean ====
section
/-! DEFINITION. The operations of the driver, the second agent (spec/00_scope.md R3, R4): NEW, INITIALIZE,
LOAD_PROGRAM, STEP with its random byte, TICK_TIMERS, SET_KEYS and the DISPLAY read port. Each is one atomic transition;
the driver may issue them in any order and any number of times. -/

namespace Sys2Proof.Machine

/-- The operations the core accepts, with their inputs (R3). -/
inductive Op where
  | new
  | initCore
  | loadProgram (bytes : List Byte)
  | step (rand8 : Byte)
  | tickTimers
  | setKeys (states : Keys)
  | display
  deriving DecidableEq, Repr

/-- What an operation answers (R3, R64, R174, R175). -/
inductive Answer where
  | ok
  | unknownOpcode (w : Word)
  | fault (k : Fault)
  | tone (complete : Bool)
  | cells (d : Display)
  | refused
  deriving DecidableEq, Repr

/-- MEM after NEW: 0 everywhere, so the addresses of the glyph set are listed, each with 0 (R23, R190). -/
def zeroMemory : Memory := Memory.writeBytes [] 0 (List.replicate 80 0)

/-- The machine after NEW: "every bit of state is 0" (R190, R23). -/
def newMachine : State := { State.reset with pc := 0, mem := zeroMemory }

/-- NEW on a machine in any state: everything of the core is 0; the driver's random source is the driver's own and goes
on (R190, R22 (a)). -/
def newFrom (s : State) : State := { newMachine with rands := s.rands, draws := s.draws }

/-- INITIALIZE for a glyph table: the table at 0 upward and PC, and nothing else (R191, R53). -/
def initWith (table : List Byte) (s : State) : State :=
  { s with mem := s.mem.writeBytes 0 table, pc := 512 }

/-- INITIALIZE (R191). -/
def initCore (s : State) : Answer × State := (.ok, initWith glyphs s)

/-- LOAD_PROGRAM: the length is tested before any byte is copied (R192). -/
def loadProgram (bytes : List Byte) (s : State) : Answer × State :=
  if 3584 < bytes.length then (.fault .capacityError, latch .capacityError s)
  else (.ok, { s with mem := s.mem.writeBytes 512 bytes })

/-- A timer counts down while above 0 (R16, R178). -/
def countDown (t : Byte) : Byte := if 0 < t.toNat then t - 1 else t

/-- TICK_TIMERS: the answer is the tone-complete signal, 1 for the tick that takes ST from 1 to 0 (R178, R179). -/
def tickTimers (s : State) : Answer × State :=
  (.tone (s.st == 1), { s with dt := countDown s.dt, st := countDown s.st })

/-- SET_KEYS: the snapshot is replaced, not merged (R180). -/
def setKeys (states : Keys) (s : State) : Answer × State := (.ok, { s with keys := states })

/-- What a STEP that has left the state t answered: Fault(k), or Ok with or without the event (R64, R174). -/
def stepAnswer (t : State) : Answer :=
  match t.fault, t.event with
  | some k, _ => .fault k
  | none, some w => .unknownOpcode w
  | none, none => .ok

/-- STEP with the random byte handed to it; a STEP that executes no Cxkk ignores its byte (R64, R111). -/
def stepWith (rand8 : Byte) (s : State) : Answer × State :=
  match step { s with rands := rand8 :: s.rands } with
  | .next t => (stepAnswer t, { t with rands := s.rands })
  | .fault k => (.fault k, s)
  | .refused _ => (.refused, s)

/-- While HALT = 1 every operation but NEW and DISPLAY is refused, with no state change and no signal (R175). -/
def unlessHalted (f : State → Answer × State) (s : State) : Answer × State :=
  if s.halt then (.refused, s) else f s

/-- One operation (R3, R4). -/
def perform : Op → State → Answer × State
  | .new, s => (.ok, newFrom s)
  | .initCore, s => unlessHalted initCore s
  | .loadProgram bytes, s => unlessHalted (loadProgram bytes) s
  | .step rand8, s => unlessHalted (stepWith rand8) s
  | .tickTimers, s => unlessHalted tickTimers s
  | .setKeys states, s => unlessHalted (setKeys states) s
  | .display, s => (.cells s.disp, s)

/-- The state a sequence of operations leaves (R4). -/
def performAll : List Op → State → State
  | [], s => s
  | op :: ops, s => performAll ops (perform op s).2

end Sys2Proof.Machine
end

