-- ==== Sys2Proof/Safety.lean ====
section
/-! DEFINITION. What counts as a safe run (spec/70_reset_and_hazards.md R199): no fatal fault and, for a clean program,
no UnknownOpcode event. -/

namespace Sys2Proof

open Machine

/-- The core is not halted (R21). -/
def Running (s : State) : Prop := s.halt = false

/-- What an instruction needs of the state it runs in so as not to fault: the single test of R173, point 4 (R166 to
R170, R199). -/
def execSafe (i : Instr) (s : State) : Prop :=
  match i with
  | .ret => 0 < s.sp.val
  | .call _ => s.sp.val < 16
  | .drw _ _ n => s.i.toNat + n.val ≤ 4096
  | .ldBcd _ => s.i.toNat + 3 ≤ 4096
  | .storeRegs x => s.i.toNat + x.val + 1 ≤ 4096
  | .loadRegs x => s.i.toNat + x.val + 1 ≤ 4096
  | .skp x => (getV s x).toNat ≤ 15
  | .sknp x => (getV s x).toNat ≤ 15
  | .cls | .jp _ | .seImm _ _ | .sneImm _ _ | .seReg _ _ | .ldImm _ _ | .addImm _ _ | .ldReg _ _ | .orReg _ _
  | .andReg _ _ | .xorReg _ _ | .addReg _ _ | .subReg _ _ | .shr _ _ | .subnReg _ _ | .shl _ _ | .sneReg _ _
  | .ldI _ | .jpV0 _ | .rnd _ _ | .ldFromDt _ | .ldKey _ | .ldToDt _ | .ldToSt _ | .addI _ | .ldGlyph _ => True

/-- The conditions under which a STEP does not fault: PC is at most 4094 and the fetched instruction, if the word is
one, passes its test (R165, R173). -/
def stepSafe (s : State) : Prop :=
  s.pc.toNat ≤ 4094 ∧
    ∀ i, decode (wordOfBytes (s.mem.read s.pc.toNat) (s.mem.read (s.pc.toNat + 1))) = .instr i → execSafe i s

/-- n STEPs complete and leave the core running. -/
def SafeFor : Nat → State → Prop
  | 0, s => Running s
  | n + 1, s => Running s ∧ ∃ t, step s = .next t ∧ SafeFor n t

/-- n STEPs complete, leave the core running and report no UnknownOpcode event (spec/93 U11). -/
def CleanFor : Nat → State → Prop
  | 0, s => Running s
  | n + 1, s => Running s ∧ ∃ t, step s = .next t ∧ t.event = none ∧ CleanFor n t

/-- What every operation keeps: memory in its canonical form; PC at most 4350 ("the largest value PC can reach", R13);
every stack slot at most 4096 ("the largest value 2nnn can push and 00EE can pop", R13); HALT set exactly when FAULT
records a kind (R21, R174). -/
structure CoreInv (s : State) : Prop where
  memory : s.mem.wf
  pc : s.pc.toNat ≤ 4350
  slots : ∀ k : Fin 16, (s.stack[k]).toNat ≤ 4096
  latch : s.halt = s.fault.isSome

/-- A state the driver's operations can lead to from the state after reset (R3, R24). -/
def Reachable (s : State) : Prop := ∃ ops, s = performAll ops State.reset

end Sys2Proof
end

