-- ==== Sys2Proof/Certificates/Slice0/Obligations.lean ====
section
/-! DEFINITION. The statements for the provers, each from the spec's rules. -/

namespace Sys2Proof.Claims

open Machine

/-- The parts of the state, for frames: everything spec/10_state.md names, then the model's output port and random
input. -/
inductive Part where
  | regs | index | pc | stack | delay | sound | memory | display | keys | latch | event | random
  deriving DecidableEq, Repr

/-- A part of t is as in s; memory byte by byte, at every address. -/
def Part.same (s t : State) : Part → Prop
  | .regs => ∀ r, getV t r = getV s r
  | .index => t.i = s.i
  | .pc => t.pc = s.pc
  | .stack => t.stack = s.stack ∧ t.sp = s.sp
  | .delay => t.dt = s.dt
  | .sound => t.st = s.st
  | .memory => ∀ a, t.mem.read a = s.mem.read a
  | .display => t.disp = s.disp
  | .keys => t.keys = s.keys
  | .latch => t.halt = s.halt ∧ t.fault = s.fault
  | .event => t.event = s.event
  | .random => t.rands = s.rands ∧ t.draws = s.draws

/-- Every part but those listed is unchanged. -/
def Unchanged (but : List Part) (s t : State) : Prop := ∀ p, p ∉ but → Part.same s t p

/-- Every register but those listed is unchanged. -/
def OtherRegs (but : List Reg) (s t : State) : Prop := ∀ r, r ∉ but → getV t r = getV s r

/-- The instruction at s completes in t, writing one register with a byte and nothing else. -/
def WritesReg (x : Reg) (b : Byte) (s t : State) : Prop :=
  getV t x = b ∧ OtherRegs [x] s t ∧ Unchanged [.regs] s t

/-- The word at PC is w, and a STEP can fetch it: the core is running and PC + 1 is at most 4095. -/
def FetchesWord (s : State) (w : Word) : Prop :=
  s.halt = false ∧ s.pc.toNat + 1 ≤ 4095 ∧ wordOfBytes (s.mem.read s.pc.toNat) (s.mem.read (s.pc.toNat + 1)) = w

/-- Pushing a list of addresses, the first first (R80). -/
def pushAll : List Word → State → Option State
  | [], s => some s
  | a :: as, s => (push a s).bind (pushAll as)

/-- Popping n addresses: what they are, in the order they come, and the state after (R80). -/
def popAll : Nat → State → Option (List Word × State)
  | 0, s => some ([], s)
  | n + 1, s => (pop s).bind fun p => (popAll n p.2).map fun q => (p.1 :: q.1, q.2)

/-- n ticks (R178). -/
def ticks : Nat → State → State
  | 0, s => s
  | n + 1, s => ticks n (perform .tickTimers s).2

/-- Sprite bit (c, r), drawn with its origin at (ox, oy), covers cell (cx, cy) (R137). -/
def spriteCovers (ox oy : Nat) (sprite : List Byte) (cx cy : Nat) : Bool :=
  decide (ox ≤ cx ∧ cx < ox + 8 ∧ oy ≤ cy ∧ cy < oy + sprite.length) &&
    (sprite.getD (cy - oy) 0).getLsbD (7 - (cx - ox))

/-- Two states that differ at most in the stack slots at or above SP. -/
def SameBelowSp (s s' : State) : Prop :=
  s' = { s with stack := s'.stack } ∧ ∀ k : Fin 16, k.val < s.sp.val → s'.stack[k] = s.stack[k]

/-- The state of an answer with its sound timer replaced. -/
def withSound (v : Byte) : Result → Result
  | .next t => .next { t with st := v }
  | .fault k => .fault k
  | .refused r => .refused r

end Sys2Proof.Claims

open Sys2Proof Sys2Proof.Machine Sys2Proof.Claims

/-! ### Encoding (30_encoding.md) -/

/-- Decoding the word of an instruction gives that instruction back, for every operand value. -/
def Obligations.DecodeOfEncode : Prop := ∀ i : Instr, decode (encode i) = .instr i

/-- A word that decodes to an instruction is that instruction's word: no bit of the word is dropped. -/
def Obligations.EncodeOfDecode : Prop := ∀ (w : Word) (i : Instr), decode w = .instr i → encode i = w

/-- The decoder and the mask and match columns of R65's table say the same: a decoded word lies in its instruction's
row, a word of a row decodes to an instruction of that row (so no word lies in two), and the unknown words are those in
no row. -/
def Obligations.DecoderAgreesWithMaskTable : Prop := ∀ w : Word,
  (∀ i, decode w = .instr i → rowOf i ∈ opcodeTable ∧ (rowOf i).covers w = true) ∧
  (∀ r ∈ opcodeTable, r.covers w = true → ∃ i, decode w = .instr i ∧ rowOf i = r) ∧
  (decode w = .unknown w ↔ ∀ r ∈ opcodeTable, r.covers w = false)

/-- The words that are no instruction are exactly R66's table, group by group. -/
def Obligations.UnknownWordsAreExactly : Prop := ∀ w : Word, decode w = .unknown w ↔
  (nibble w 3 = 0x0 ∧ w ≠ 0x00E0#16 ∧ w ≠ 0x00EE#16) ∨
  (nibble w 3 = 0x5 ∧ fieldN w ≠ 0) ∨
  (nibble w 3 = 0x8 ∧ fieldN w ∈ [0x8, 0x9, 0xA, 0xB, 0xC, 0xD, 0xF]) ∨
  (nibble w 3 = 0x9 ∧ fieldN w ≠ 0) ∨
  (nibble w 3 = 0xE ∧ fieldKK w ∉ [0x9E#8, 0xA1#8]) ∨
  (nibble w 3 = 0xF ∧
    fieldKK w ∉ [0x07#8, 0x0A#8, 0x15#8, 0x18#8, 0x1E#8, 0x29#8, 0x33#8, 0x55#8, 0x65#8])

/-- Words of spec/95_test_vectors.md's decode table, written out there. -/
def Obligations.SampleWordsDecode : Prop :=
  decode 0x0000#16 = .unknown 0x0000#16 ∧ decode 0x00E0#16 = .instr .cls ∧ decode 0x00EE#16 = .instr .ret ∧
  decode 0x10E0#16 = .instr (.jp 0x0E0#12) ∧ decode 0x5AB0#16 = .instr (.seReg 0xA 0xB) ∧
  decode 0x5AB1#16 = .unknown 0x5AB1#16 ∧ decode 0x8AB4#16 = .instr (.addReg 0xA 0xB) ∧
  decode 0x8ABE#16 = .instr (.shl 0xA 0xB) ∧ decode 0xE19E#16 = .instr (.skp 1) ∧
  decode 0xF155#16 = .instr (.storeRegs 1) ∧ decode 0xF175#16 = .unknown 0xF175#16 ∧
  decode 0xD123#16 = .instr (.drw 1 2 3) ∧ decode 0xC1FF#16 = .instr (.rnd 1 0xFF#8)

/-- The source line a disassembler shows assembles back to the instruction's bytes; SHR and SHL assemble with y = 0
(R70, whose mnemonics and syntax are the spec's own choice, decision D13). -/
def Obligations.AssembleOfDisassemble : Prop :=
  (∀ i : Instr, (∀ x y, i ≠ .shr x y ∧ i ≠ .shl x y) →
    assemble (disassemble i) = .ok (bytesOfWord (encode i))) ∧
  (∀ x y : Reg, assemble (disassemble (.shr x y)) = .ok (bytesOfWord (encode (.shr x 0))) ∧
    assemble (disassemble (.shl x y)) = .ok (bytesOfWord (encode (.shl x 0))))

/-! ### The step (30_encoding.md R64, 60_exceptions.md R173 to R175) -/

/-- STEP runs the decoded instruction from the post-fetch state; an unknown word is reported with PC advanced (decision
D5); a fetch past 4095 latches AddressOutOfRange with PC not advanced; a halted core refuses (decision D2). -/
def Obligations.StepRunsDecodedInstruction : Prop :=
  (∀ s w i, FetchesWord s w → decode w = .instr i →
    step s = exec i { s with pc := s.pc + 2, event := none }) ∧
  (∀ s w, FetchesWord s w → decode w = .unknown w →
    step s = .next { s with pc := s.pc + 2, event := some w }) ∧
  (∀ s, s.halt = false → 4095 < s.pc.toNat + 1 →
    step s = .next { s with halt := true, fault := some .addressOutOfRange, event := none }) ∧
  (∀ s, s.halt = true → step s = .refused .halted)

/-- The fetched word is MEM[PC] and MEM[PC + 1] (R43): the byte at the lower address in bits 15:8, that is n1 and n2, and
the other in bits 7:0, that is kk. -/
def Obligations.FetchIsBigEndian : Prop := ∀ s w, fetchWord s = some w →
  w.toNat = 256 * (s.mem.read s.pc.toNat).toNat + (s.mem.read (s.pc.toNat + 1)).toNat ∧
  16 * (nibble w 3).val + (nibble w 2).val = (s.mem.read s.pc.toNat).toNat ∧
  fieldKK w = s.mem.read (s.pc.toNat + 1)

/-- No meaning stops: every instruction answers a next state in every state, and a STEP answers a next state exactly
when the core is running and never answers a fault (a fatal fault is the next state with HALT set; log entry 5). -/
def Obligations.EveryInstructionAnswersNext : Prop :=
  (∀ i s, ∃ t, exec i s = .next t) ∧
  (∀ s, (∃ t, step s = .next t) ↔ s.halt = false) ∧
  (∀ s k, step s ≠ .fault k)

/-- Faults are precise (R174, decision D4; the latch is decision D2): a STEP that halts the core has changed nothing but
PC by the fetch, HALT and FAULT; after a fetch fault PC is unchanged. No STEP raises CapacityError (R169). -/
def Obligations.FaultsArePrecise : Prop := ∀ s t, s.halt = false → step s = .next t → t.halt = true →
  ∃ k, k ≠ .capacityError ∧
    t = { s with
      pc := if s.pc.toNat + 1 ≤ 4095 then s.pc + 2 else s.pc
      halt := true
      fault := some k
      event := none }

/-- A STEP leaves the core running exactly when PC is at most 4094 and the fetched instruction passes its one test
(R165, R173; the span tests are decisions D8 and D9, the key test D7, the halting D2). -/
def Obligations.StepFaultsExactlyWhenUnsafe : Prop := ∀ s t, s.halt = false → step s = .next t →
  (t.halt = false ↔ stepSafe s)

/-- What each of the eight faulting instructions latches when its test fails, nothing else being written (R166 to R168,
R170; decisions D2, D4 and D7). -/
def Obligations.TrapsLatchTheirKind : Prop :=
  (∀ s, s.sp.val = 0 → exec .ret s = .next { s with halt := true, fault := some .stackUnderflow }) ∧
  (∀ s nnn, s.sp.val = 16 → exec (.call nnn) s = .next { s with halt := true, fault := some .stackOverflow }) ∧
  (∀ s x y n, 4096 < s.i.toNat + n.val →
    exec (.drw x y n) s = .next { s with halt := true, fault := some .addressOutOfRange }) ∧
  (∀ s x, 4096 < s.i.toNat + 3 →
    exec (.ldBcd x) s = .next { s with halt := true, fault := some .addressOutOfRange }) ∧
  (∀ s (x : Reg), 4096 < s.i.toNat + (x.val + 1) →
    exec (.storeRegs x) s = .next { s with halt := true, fault := some .addressOutOfRange } ∧
    exec (.loadRegs x) s = .next { s with halt := true, fault := some .addressOutOfRange }) ∧
  (∀ s x, 15 < (getV s x).toNat →
    exec (.skp x) s = .next { s with halt := true, fault := some .keyIndexOutOfRange } ∧
    exec (.sknp x) s = .next { s with halt := true, fault := some .keyIndexOutOfRange })

/-! ### Invariants -/

/-- Every STEP that answers a next state keeps the invariant: memory canonical (the model's own form), PC at most 4350 and
every stack slot at most 4096 (derived in R13), HALT set exactly when FAULT records a kind (decision D2). -/
def Obligations.StepKeepsInvariant : Prop := ∀ s t, CoreInv s → step s = .next t → CoreInv t

/-- The invariant holds after reset, and after NEW. -/
def Obligations.InvariantAtReset : Prop := CoreInv State.reset ∧ CoreInv newMachine

/-- Every operation of the driver keeps the invariant, so every reachable state has it. -/
def Obligations.EveryOperationKeepsInvariant : Prop :=
  (∀ op s, CoreInv s → CoreInv (perform op s).2) ∧ ∀ s, Reachable s → CoreInv s

/-- Who writes what, over all 34 instructions (the table of 10_state.md, section 7; PC here is the post-fetch PC, the
fetch's own write being the step's): KEYS and the output port by none, and every other store only by the instructions
listed, a general register only where it is the instruction's destination, in its loaded block, or VF of a flag writer.
That a fault is written to HALT and FAULT is decision D2, log entry 7. -/
def Obligations.StateIsWrittenOnlyBy : Prop := ∀ i s t, exec i s = .next t →
  t.keys = s.keys ∧ t.event = s.event ∧
  (t.dt ≠ s.dt → ∃ x, i = .ldToDt x) ∧
  (t.st ≠ s.st → ∃ x, i = .ldToSt x) ∧
  (t.disp ≠ s.disp → i = .cls ∨ ∃ x y n, i = .drw x y n) ∧
  (t.stack ≠ s.stack → ∃ nnn, i = .call nnn) ∧
  (t.sp ≠ s.sp → i = .ret ∨ ∃ nnn, i = .call nnn) ∧
  (t.mem ≠ s.mem → ∃ x, i = .ldBcd x ∨ i = .storeRegs x) ∧
  (t.i ≠ s.i → (∃ nnn, i = .ldI nnn) ∨ ∃ x, i = .addI x ∨ i = .ldGlyph x) ∧
  ((t.rands ≠ s.rands ∨ t.draws ≠ s.draws) → ∃ x kk, i = .rnd x kk) ∧
  (∀ r, getV t r ≠ getV s r →
    (∃ kk, i = .ldImm r kk ∨ i = .addImm r kk ∨ i = .rnd r kk) ∨
    (∃ y, i = .ldReg r y ∨ i = .orReg r y ∨ i = .andReg r y ∨ i = .xorReg r y) ∨
    (∃ x y, (r = x ∨ r = vf) ∧
      (i = .addReg x y ∨ i = .subReg x y ∨ i = .subnReg x y ∨ i = .shr x y ∨ i = .shl x y)) ∨
    (r = vf ∧ ∃ x y n, i = .drw x y n) ∨
    i = .ldFromDt r ∨ i = .ldKey r ∨ ∃ x, r ≤ x ∧ i = .loadRegs x) ∧
  (t.pc ≠ s.pc →
    i = .ret ∨ (∃ nnn, i = .jp nnn ∨ i = .call nnn ∨ i = .jpV0 nnn) ∨
    (∃ x kk, i = .seImm x kk ∨ i = .sneImm x kk) ∨ (∃ x y, i = .seReg x y ∨ i = .sneReg x y) ∨
    ∃ x, i = .skp x ∨ i = .sknp x ∨ i = .ldKey x) ∧
  ((t.halt ≠ s.halt ∨ t.fault ≠ s.fault) →
    i = .ret ∨ (∃ nnn, i = .call nnn) ∨ (∃ x y n, i = .drw x y n) ∨
    ∃ x, i = .ldBcd x ∨ i = .storeRegs x ∨ i = .loadRegs x ∨ i = .skp x ∨ i = .sknp x)

/-- The six flag-writing instructions of R11 write VF; any other instruction changes VF only where it names VF as its
destination, or loads it as the last register of a block. -/
def Obligations.OnlySixInstructionsWriteVfAsAFlag : Prop := ∀ i s t, exec i s = .next t →
  getV t vf ≠ getV s vf →
  (∃ x y, i = .addReg x y ∨ i = .subReg x y ∨ i = .subnReg x y ∨ i = .shr x y ∨ i = .shl x y) ∨
  (∃ x y n, i = .drw x y n) ∨
  (∃ kk, i = .ldImm vf kk ∨ i = .addImm vf kk ∨ i = .rnd vf kk) ∨
  (∃ y, i = .ldReg vf y ∨ i = .orReg vf y ∨ i = .andReg vf y ∨ i = .xorReg vf y) ∨
  i = .ldFromDt vf ∨ i = .ldKey vf ∨ i = .loadRegs vf

/-! ### Arithmetic (41_alu.md) -/

/-- R100, R102, R153: Vx becomes kk, Vy, DT; nothing else changes. -/
def Obligations.LoadsWriteVxOnly : Prop :=
  (∀ s x kk, ∃ t, exec (.ldImm x kk) s = .next t ∧ WritesReg x kk s t) ∧
  (∀ s x y, ∃ t, exec (.ldReg x y) s = .next t ∧ WritesReg x (getV s y) s t) ∧
  (∀ s x, ∃ t, exec (.ldFromDt x) s = .next t ∧ WritesReg x s.dt s t)

/-- R103 to R105: the bitwise result goes to Vx; VF is not written (unless it is Vx), nor is anything else. -/
def Obligations.LogicWritesVxOnly : Prop := ∀ s x y,
  (∃ t, exec (.orReg x y) s = .next t ∧ WritesReg x (getV s x ||| getV s y) s t) ∧
  (∃ t, exec (.andReg x y) s = .next t ∧ WritesReg x (getV s x &&& getV s y) s t) ∧
  (∃ t, exec (.xorReg x y) s = .next t ∧ WritesReg x (getV s x ^^^ getV s y) s t)

/-- R101: Vx becomes the sum modulo 256; no other register, VF among them, and nothing else changes. -/
def Obligations.AddImmediateSetsNoFlag : Prop := ∀ s x kk, ∃ t, exec (.addImm x kk) s = .next t ∧
  (getV t x).toNat = ((getV s x).toNat + kk.toNat) % 256 ∧ OtherRegs [x] s t ∧ Unchanged [.regs] s t

/-- R113, for x different from 15: the result and the flag of 8xy4, 8xy5, 8xy7, 8xy6 and 8xyE, 7xkk reporting nothing;
Vx and VF are the only registers written and nothing else changes. -/
def Obligations.ArithmeticResultsAndFlags : Prop := ∀ (s : State) (x y : Reg), x ≠ vf →
  let a := (getV s x).toNat
  let b := (getV s y).toNat
  (∃ t, exec (.addReg x y) s = .next t ∧ (getV t x).toNat = (a + b) % 256 ∧
    (getV t vf).toNat = (if a + b > 255 then 1 else 0) ∧ OtherRegs [x, vf] s t ∧ Unchanged [.regs] s t) ∧
  (∃ t, exec (.subReg x y) s = .next t ∧ (getV t x).toNat = (if a ≥ b then a - b else a + 256 - b) ∧
    (getV t vf).toNat = (if a ≥ b then 1 else 0) ∧ OtherRegs [x, vf] s t ∧ Unchanged [.regs] s t) ∧
  (∃ t, exec (.subnReg x y) s = .next t ∧ (getV t x).toNat = (if b ≥ a then b - a else b + 256 - a) ∧
    (getV t vf).toNat = (if b ≥ a then 1 else 0) ∧ OtherRegs [x, vf] s t ∧ Unchanged [.regs] s t) ∧
  (∃ t, exec (.shr x y) s = .next t ∧ (getV t x).toNat = a / 2 ∧
    (getV t vf).toNat = a % 2 ∧ OtherRegs [x, vf] s t ∧ Unchanged [.regs] s t) ∧
  (∃ t, exec (.shl x y) s = .next t ∧ (getV t x).toNat = a * 2 % 256 ∧
    (getV t vf).toNat = a / 128 ∧ OtherRegs [x, vf] s t ∧ Unchanged [.regs] s t) ∧
  (∀ kk, ∃ t, exec (.addImm x kk) s = .next t ∧ (getV t x).toNat = (a + kk.toNat) % 256 ∧
    getV t vf = getV s vf ∧ OtherRegs [x] s t ∧ Unchanged [.regs] s t)

/-- The same five instructions with x = 15, where one register is both results: the later of the two writes in the
table's order survives, the flag for 8xy4, 8xy5 and 8xy7 and the shifted value for 8xy6 and 8xyE (the spec's own choice,
decision D6, R112). -/
def Obligations.FlagWritersWithVfAsDestination : Prop := ∀ (s : State) (y : Reg),
  let a := (getV s vf).toNat
  let b := (getV s y).toNat
  (∃ t, exec (.addReg vf y) s = .next t ∧ (getV t vf).toNat = (if a + b > 255 then 1 else 0) ∧
    OtherRegs [vf] s t ∧ Unchanged [.regs] s t) ∧
  (∃ t, exec (.subReg vf y) s = .next t ∧ (getV t vf).toNat = (if a ≥ b then 1 else 0) ∧
    OtherRegs [vf] s t ∧ Unchanged [.regs] s t) ∧
  (∃ t, exec (.subnReg vf y) s = .next t ∧ (getV t vf).toNat = (if b ≥ a then 1 else 0) ∧
    OtherRegs [vf] s t ∧ Unchanged [.regs] s t) ∧
  (∃ t, exec (.shr vf y) s = .next t ∧ (getV t vf).toNat = a / 2 ∧
    OtherRegs [vf] s t ∧ Unchanged [.regs] s t) ∧
  (∃ t, exec (.shl vf y) s = .next t ∧ (getV t vf).toNat = a * 2 % 256 ∧
    OtherRegs [vf] s t ∧ Unchanged [.regs] s t)

/-- The y field of 8xy6 and 8xyE selects nothing (R67): all values of y behave alike, and where Vy is neither Vx nor VF
it is neither read nor written. -/
def Obligations.ShiftsIgnoreTheirYField : Prop := ∀ s x y y',
  exec (.shr x y) s = exec (.shr x y') s ∧ exec (.shl x y) s = exec (.shl x y') s ∧
  (y ≠ x → y ≠ vf → ∀ b,
    (∃ t u, exec (.shr x y) s = .next t ∧ exec (.shr x y) (setV y b s) = .next u ∧
      getV t y = getV s y ∧ getV u y = b ∧ ∀ r, r ≠ y → getV u r = getV t r) ∧
    (∃ t u, exec (.shl x y) s = .next t ∧ exec (.shl x y) (setV y b s) = .next u ∧
      getV t y = getV s y ∧ getV u y = b ∧ ∀ r, r ≠ y → getV u r = getV t r))

/-- Cxkk (R111, decision D12): Vx becomes the random byte AND kk, for every byte the driver supplies, and for the free
value where it supplies none; one draw is consumed; the result is a submask of kk; nothing else changes. -/
def Obligations.RandomByteIsMaskedByKk : Prop :=
  (∀ s x kk r rs, s.rands = r :: rs → ∃ t, exec (.rnd x kk) s = .next t ∧ getV t x = r &&& kk ∧
    getV t x &&& kk = getV t x ∧ t.rands = rs ∧ t.draws = s.draws ∧ OtherRegs [x] s t ∧
    Unchanged [.regs, .random] s t) ∧
  (∀ s x kk, s.rands = [] → ∃ t, exec (.rnd x kk) s = .next t ∧ getV t x = Config.randByte s.draws &&& kk ∧
    getV t x &&& kk = getV t x ∧ t.rands = [] ∧ t.draws = s.draws + 1 ∧ OtherRegs [x] s t ∧
    Unchanged [.regs, .random] s t)

/-- A STEP whose word is no Cxkk ignores its random byte (R64, R22 (a)). -/
def Obligations.StepIgnoresRandomByteUnlessRnd : Prop := ∀ s r r',
  (∀ w x kk, fetchWord s = some w → decode w ≠ .instr (.rnd x kk)) →
  perform (.step r) s = perform (.step r') s

/-! ### Control transfer (40_control_flow.md) -/

/-- R83, R89: PC becomes nnn, or nnn + V0 with no wrap and no mask; nothing else changes. -/
def Obligations.JumpsReplacePc : Prop := ∀ s nnn,
  (∃ t, exec (.jp nnn) s = .next t ∧ t.pc.toNat = nnn.toNat ∧ Unchanged [.pc] s t) ∧
  (∃ t, exec (.jpV0 nnn) s = .next t ∧ t.pc.toNat = nnn.toNat + (getV s 0).toNat ∧ Unchanged [.pc] s t)

/-- CALL stores the post-fetch PC in the free slot and jumps (R84); with SP = 16 the fault is latched, nothing is pushed
and PC is not set (decisions D2 and D4). -/
def Obligations.CallPushesReturnAddress : Prop := ∀ s nnn,
  (∀ h : s.sp.val < 16, ∃ t, exec (.call nnn) s = .next t ∧ t.pc.toNat = nnn.toNat ∧
    t.sp.val = s.sp.val + 1 ∧ t.stack[s.sp.val] = s.pc ∧
    (∀ k : Fin 16, k.val ≠ s.sp.val → t.stack[k] = s.stack[k]) ∧ Unchanged [.pc, .stack] s t) ∧
  (s.sp.val = 16 → ∃ t, exec (.call nnn) s = .next t ∧
    t.halt = true ∧ t.fault = some .stackOverflow ∧ Unchanged [.latch] s t)

/-- RET takes PC from the newest slot and counts SP down (R82), the slots keeping their contents (decision D21); with
SP = 0 the fault is latched and SP, STACK and PC are unchanged (decisions D2 and D4). -/
def Obligations.ReturnPopsPc : Prop := ∀ s,
  (∀ h : 0 < s.sp.val ∧ s.sp.val - 1 < 16, ∃ t, exec .ret s = .next t ∧ t.pc = s.stack[s.sp.val - 1]'h.2 ∧
    t.sp.val = s.sp.val - 1 ∧ t.stack = s.stack ∧ Unchanged [.pc, .stack] s t) ∧
  (s.sp.val = 0 → ∃ t, exec .ret s = .next t ∧
    t.halt = true ∧ t.fault = some .stackUnderflow ∧ Unchanged [.latch] s t)

/-- N addresses pushed (as many as there is room for) are popped in exact reverse order and leave SP where it was;
a push with 16 stored fails and a pop with none stored fails (R80; that the slots keep their contents is decision D21). -/
def Obligations.StackIsLastInFirstOut : Prop :=
  (∀ as s, s.sp.val + as.length ≤ 16 → ∃ t u, pushAll as s = some t ∧ t.sp.val = s.sp.val + as.length ∧
    popAll as.length t = some (as.reverse, u) ∧ u.sp = s.sp ∧ u.stack = t.stack ∧ Unchanged [.stack] s u) ∧
  (∀ a s, push a s = none ↔ s.sp.val = 16) ∧ (∀ s, pop s = none ↔ s.sp.val = 0)

/-- CALL then RET leaves PC at the instruction after the CALL, and SP as it was (R82; the source's property S5). -/
def Obligations.CallThenReturnResumesAfterCall : Prop := ∀ s nnn, s.sp.val < 16 →
  ∃ t u, exec (.call nnn) s = .next t ∧ exec .ret t = .next u ∧ u.pc = s.pc ∧ u.sp = s.sp ∧ Unchanged [.stack] s u

/-- R85 to R88: the skip adds 2 to the post-fetch PC exactly when the comparison holds; nothing else changes. A word of
groups 5 and 9 whose low digit is not 0 is unknown. -/
def Obligations.RegisterSkips : Prop :=
  (∀ (s : State) (x y : Reg) (kk : Byte),
    (∃ t, exec (.seImm x kk) s = .next t ∧
      t.pc = (if getV s x = kk then s.pc + 2 else s.pc) ∧ Unchanged [.pc] s t) ∧
    (∃ t, exec (.sneImm x kk) s = .next t ∧
      t.pc = (if getV s x = kk then s.pc else s.pc + 2) ∧ Unchanged [.pc] s t) ∧
    (∃ t, exec (.seReg x y) s = .next t ∧
      t.pc = (if getV s x = getV s y then s.pc + 2 else s.pc) ∧ Unchanged [.pc] s t) ∧
    (∃ t, exec (.sneReg x y) s = .next t ∧
      t.pc = (if getV s x = getV s y then s.pc else s.pc + 2) ∧ Unchanged [.pc] s t)) ∧
  (∀ w : Word, (nibble w 3 = 0x5 ∨ nibble w 3 = 0x9) → fieldN w ≠ 0 → decode w = .unknown w)

/-- A jump to its own address changes no state (R203, R83): the step leaves everything but clears the output port. -/
def Obligations.SelfJumpIsAFixedPoint : Prop := ∀ s (nnn : Addr12), FetchesWord s (encode (.jp nnn)) →
  nnn.toNat = s.pc.toNat → step s = .next { s with event := none }

/-- Stack slots at or above SP cannot be observed by any instruction (R14, decision D21): states that differ only
there run to states that differ only there. -/
def Obligations.StaleStackSlotsAreUnobservable : Prop := ∀ i s s' t, SameBelowSp s s' → exec i s = .next t →
  ∃ t', exec i s' = .next t' ∧ SameBelowSp t t'

/-! ### Index register and memory (42_index_memory.md, 20_memory.md) -/

/-- R120 to R122: I becomes nnn, (I + Vx) mod 65536, Vx * 5; nothing else changes. -/
def Obligations.IndexRegisterWrites : Prop := ∀ s nnn x,
  (∃ t, exec (.ldI nnn) s = .next t ∧ t.i.toNat = nnn.toNat ∧ Unchanged [.index] s t) ∧
  (∃ t, exec (.addI x) s = .next t ∧ t.i.toNat = (s.i.toNat + (getV s x).toNat) % 65536 ∧
    Unchanged [.index] s t) ∧
  (∃ t, exec (.ldGlyph x) s = .next t ∧ t.i.toNat = (getV s x).toNat * 5 ∧ Unchanged [.index] s t)

/-- The three decimal digits of Vx go to I, I + 1, I + 2 and every other byte, I and Vx are unchanged (R123); when I + 3
exceeds 4096 AddressOutOfRange is latched and no byte is written (decisions D2, D4, D9). -/
def Obligations.BcdStoresThreeDigits : Prop := ∀ s x, s.mem.wf →
  (ea s 3 ≤ 4096 → ∃ t, exec (.ldBcd x) s = .next t ∧
    (t.mem.read (ea s 0)).toNat = (getV s x).toNat / 100 ∧
    (t.mem.read (ea s 1)).toNat = (getV s x).toNat / 10 % 10 ∧
    (t.mem.read (ea s 2)).toNat = (getV s x).toNat % 10 ∧
    (∀ a, a < ea s 0 ∨ ea s 3 ≤ a → t.mem.read a = s.mem.read a) ∧ Unchanged [.memory] s t) ∧
  (4096 < ea s 3 → ∃ t, exec (.ldBcd x) s = .next t ∧
    t.halt = true ∧ t.fault = some .addressOutOfRange ∧ Unchanged [.latch] s t)

/-- V0..Vx go to I .. I + x and every other byte, I and the registers are unchanged (R125); when I + x + 1 exceeds 4096
AddressOutOfRange is latched and no byte is written (decisions D2, D4, D9). -/
def Obligations.BlockStoreWritesRegisters : Prop := ∀ s (x : Reg), s.mem.wf →
  (ea s (x.val + 1) ≤ 4096 → ∃ t, exec (.storeRegs x) s = .next t ∧
    (∀ k : Reg, k.val ≤ x.val → t.mem.read (ea s k.val) = getV s k) ∧
    (∀ a, a < ea s 0 ∨ ea s (x.val + 1) ≤ a → t.mem.read a = s.mem.read a) ∧ Unchanged [.memory] s t) ∧
  (4096 < ea s (x.val + 1) → ∃ t, exec (.storeRegs x) s = .next t ∧
    t.halt = true ∧ t.fault = some .addressOutOfRange ∧ Unchanged [.latch] s t)

/-- V0..Vx are loaded from I .. I + x; the registers above x, I and memory are unchanged (R126); when I + x + 1 exceeds
4096 AddressOutOfRange is latched and no register is written (decisions D2, D4, D9). -/
def Obligations.BlockLoadReadsMemory : Prop := ∀ s (x : Reg),
  (ea s (x.val + 1) ≤ 4096 → ∃ t, exec (.loadRegs x) s = .next t ∧
    (∀ k : Reg, k.val ≤ x.val → getV t k = s.mem.read (ea s k.val)) ∧
    (∀ k : Reg, x.val < k.val → getV t k = getV s k) ∧ Unchanged [.regs] s t) ∧
  (4096 < ea s (x.val + 1) → ∃ t, exec (.loadRegs x) s = .next t ∧
    t.halt = true ∧ t.fault = some .addressOutOfRange ∧ Unchanged [.latch] s t)

/-- A store is seen by the next fetch (R51, R43): after Fx55 with x >= 1 at the address that PC comes to, the fetched
word is V0 in bits 15:8 and V1 in bits 7:0. -/
def Obligations.StoredBytesAreFetched : Prop := ∀ s (x : Reg), s.mem.wf → 1 ≤ x.val → ea s (x.val + 1) ≤ 4096 →
  s.pc = s.i → ∃ t, exec (.storeRegs x) s = .next t ∧ fetchWord t = some (wordOfBytes (getV s 0) (getV s 1))

/-! ### Display (43_display.md) -/

/-- R135: every cell is cleared; nothing else changes, VF among it. -/
def Obligations.ClearDisplayClearsEveryCell : Prop := ∀ s, ∃ t, exec .cls s = .next t ∧
  (∀ cx cy, cell t.disp cx cy = false) ∧ (∀ k, k < 2048 → t.disp.getLsbD k = false) ∧ Unchanged [.display] s t

/-- The compositing loop of R137 is an exclusive-or of the sprite, its origin wrapped once and its pixels clipped, onto
the display, and reports a collision exactly when some cell goes from 1 to 0. -/
def Obligations.CompositeIsClippedXor : Prop := ∀ (vx vy : Byte) (sprite : List Byte) (d : Display),
  let covers := spriteCovers (vx.toNat % 64) (vy.toNat % 32) sprite
  (∀ cx cy, cx < 64 → cy < 32 → cell (composite vx vy sprite d).1 cx cy = (cell d cx cy ^^ covers cx cy)) ∧
  ((composite vx vy sprite d).2 = true ↔
    ∃ cx cy, cx < 64 ∧ cy < 32 ∧ cell d cx cy = true ∧ covers cx cy = true)

/-- Drawing the same sprite twice at one place restores the display, and the second draw reports a collision exactly
when some 1 bit of the sprite is not clipped, for a display that the first draw found without a collision. -/
def Obligations.DrawingTwiceRestoresTheDisplay : Prop := ∀ (vx vy : Byte) (sprite : List Byte) (d : Display),
  (composite vx vy sprite (composite vx vy sprite d).1).1 = d ∧
  ((composite vx vy sprite d).2 = false →
    ((composite vx vy sprite (composite vx vy sprite d).1).2 = true ↔
      ∃ cx cy, cx < 64 ∧ cy < 32 ∧ spriteCovers (vx.toNat % 64) (vy.toNat % 32) sprite cx cy = true))

/-- DRW composites the n bytes at I at the old (Vx, Vy) and writes VF with the collision, also when x or y is 15
and when n = 0, which draws nothing; nothing else changes (R136; that the empty span passes at I = 4096 is decision D8);
when I + n exceeds 4096 AddressOutOfRange is latched and DISP and VF are unchanged (decisions D2, D4, D9). -/
def Obligations.DrawCompositesAndSetsVf : Prop := ∀ s x y (n : Fin 16),
  (ea s n.val ≤ 4096 → ∃ t sprite, exec (.drw x y n) s = .next t ∧ sprite.length = n.val ∧
    (∀ r (h : r < sprite.length), sprite[r] = s.mem.read (ea s r)) ∧
    t.disp = (composite (getV s x) (getV s y) sprite s.disp).1 ∧
    (getV t vf).toNat = (if (composite (getV s x) (getV s y) sprite s.disp).2 = true then 1 else 0) ∧
    (n = 0 → t.disp = s.disp ∧ getV t vf = 0) ∧
    OtherRegs [vf] s t ∧ Unchanged [.regs, .display] s t) ∧
  (4096 < ea s n.val → ∃ t, exec (.drw x y n) s = .next t ∧
    t.halt = true ∧ t.fault = some .addressOutOfRange ∧ Unchanged [.latch] s t)

/-- The display port answers the 2048 cells, cell (cx, cy) at index cy * 64 + cx, and changes nothing, also while halted
(R139; the halted part is decision D2). -/
def Obligations.DisplayPortShowsEveryCell : Prop := ∀ s, ∃ d, perform .display s = (.cells d, s) ∧
  ∀ cx cy, cx < 64 → cy < 32 → d.getLsbD (cy * 64 + cx) = cell s.disp cx cy

/-! ### Keys and timers (44_keys_timers.md, 60_exceptions.md) -/

/-- With Vx at most 15 the skip is taken exactly when key Vx is down (SKP, R150) or up (SKNP, R151) in the snapshot; with
Vx above 15 KeyIndexOutOfRange is latched and PC stays (decisions D2, D4, D7). -/
def Obligations.KeySkips : Prop := ∀ s x,
  (∀ h : (getV s x).toNat < 16,
    (∃ t, exec (.skp x) s = .next t ∧
      t.pc = (if s.keys[(getV s x).toNat] = true then s.pc + 2 else s.pc) ∧ Unchanged [.pc] s t) ∧
    (∃ t, exec (.sknp x) s = .next t ∧
      t.pc = (if s.keys[(getV s x).toNat] = true then s.pc else s.pc + 2) ∧ Unchanged [.pc] s t)) ∧
  (15 < (getV s x).toNat →
    (∃ t, exec (.skp x) s = .next t ∧
    t.halt = true ∧ t.fault = some .keyIndexOutOfRange ∧ Unchanged [.latch] s t) ∧
    (∃ t, exec (.sknp x) s = .next t ∧
    t.halt = true ∧ t.fault = some .keyIndexOutOfRange ∧ Unchanged [.latch] s t))

/-- R152: with some key down Vx becomes the lowest index down and nothing else changes; with none down PC goes back by 2
and nothing else changes. -/
def Obligations.KeyWaitTakesTheLowestKey : Prop := ∀ s x,
  (∀ k : Fin 16, s.keys[k] = true → (∀ j : Fin 16, j < k → s.keys[j] = false) →
    ∃ t, exec (.ldKey x) s = .next t ∧ (getV t x).toNat = k.val ∧ OtherRegs [x] s t ∧ Unchanged [.regs] s t) ∧
  ((∀ k : Fin 16, s.keys[k] = false) → ∃ t, exec (.ldKey x) s = .next t ∧ t.pc = s.pc - 2 ∧ Unchanged [.pc] s t)

/-- A STEP that executes Fx0A with no key down leaves the whole state of the core as it was (R152, the source's property
S9); the output port reports no event. -/
def Obligations.KeyWaitStepLeavesTheState : Prop := ∀ s x, FetchesWord s (encode (.ldKey x)) →
  (∀ k : Fin 16, s.keys[k] = false) → step s = .next { s with event := none }

/-- R154, R155: DT or ST becomes Vx; nothing else changes. -/
def Obligations.TimerWrites : Prop := ∀ s x,
  (∃ t, exec (.ldToDt x) s = .next t ∧ t.dt = getV s x ∧ Unchanged [.delay] s t) ∧
  (∃ t, exec (.ldToSt x) s = .next t ∧ t.st = getV s x ∧ Unchanged [.sound] s t)

/-- A tick counts each timer down by 1 when above 0 and leaves it at 0 otherwise, answers the tone-complete signal
exactly when ST was 1, and touches nothing else (R178; the signal as an answer is decision D20); a halted core refuses it
(decision D2). -/
def Obligations.TickCountsBothTimersDown : Prop := ∀ s,
  (s.halt = false → ∃ tone t, perform .tickTimers s = (.tone tone, t) ∧
    t.dt.toNat = s.dt.toNat - 1 ∧ t.st.toNat = s.st.toNat - 1 ∧ (tone = true ↔ s.st.toNat = 1) ∧
    Unchanged [.delay, .sound] s t) ∧
  (s.halt = true → perform .tickTimers s = (.refused, s))

/-- A timer set to v reaches 0 after exactly v ticks and stays there; the tone-complete signal is the answer of the tick
number v and of no other (R178). That the signal is the answer of a tick, not latched, is a choice: decision D20 (R179),
log entry 19. -/
def Obligations.TimersReachZeroAfterTheirValue : Prop := ∀ s n, s.halt = false →
  (ticks n s).dt.toNat = s.dt.toNat - n ∧ (ticks n s).st.toNat = s.st.toNat - n ∧
  ((perform .tickTimers (ticks n s)).1 = .tone true ↔ s.st.toNat = n + 1)

/-- Whatever the driver does, a timer goes up only by a STEP that executes Fx15 (DT) or Fx18 (ST) (R197), and only to a
value some register holds. -/
def Obligations.TimersRiseOnlyWhenWritten : Prop := ∀ op s,
  (s.dt.toNat < (perform op s).2.dt.toNat → ∃ r w x, op = .step r ∧ fetchWord s = some w ∧
    decode w = .instr (.ldToDt x) ∧ (perform op s).2.dt = getV s x) ∧
  (s.st.toNat < (perform op s).2.st.toNat → ∃ r w x, op = .step r ∧ fetchWord s = some w ∧
    decode w = .instr (.ldToSt x) ∧ (perform op s).2.st = getV s x)

/-- No instruction reads ST (R17): exec with another value in ST does the same, ST apart. -/
def Obligations.SoundTimerIsNeverRead : Prop := ∀ i s v, (∀ x, i ≠ .ldToSt x) →
  exec i { s with st := v } = withSound v (exec i s)

/-- The snapshot is replaced whole, key by key, and nothing else changes (R180); a halted core refuses it (decision D2). -/
def Obligations.SetKeysReplacesTheSnapshot : Prop := ∀ s (states : Keys),
  (s.halt = false → ∃ t, perform (.setKeys states) s = (.ok, t) ∧
    (∀ k : Fin 16, t.keys[k] = states[k]) ∧ Unchanged [.keys] s t) ∧
  (s.halt = true → perform (.setKeys states) s = (.refused, s))

/-! ### The other operations (70_reset_and_hazards.md, 60_exceptions.md R175) -/

/-- After NEW every piece of the core's state is 0, whatever the machine was (R190, R23; HALT, FAULT: decision D2). -/
def Obligations.NewZeroesEverything : Prop := ∀ s, ∃ t, perform .new s = (.ok, t) ∧
  (∀ r, getV t r = 0) ∧ t.i = 0 ∧ t.pc = 0 ∧ (∀ k : Fin 16, t.stack[k] = 0) ∧ t.sp = 0 ∧ t.dt = 0 ∧ t.st = 0 ∧
  (∀ a, t.mem.read a = 0) ∧ (∀ k, k < 2048 → t.disp.getLsbD k = false) ∧ (∀ k : Fin 16, t.keys[k] = false) ∧
  t.halt = false ∧ t.fault = none

/-- The state after reset is NEW followed by INITIALIZE (decision D15): the last column of R23's table. -/
def Obligations.ResetIsNewThenInitialize : Prop :=
  perform .initCore newMachine = (.ok, State.reset) ∧
  (∀ r, getV State.reset r = 0) ∧ State.reset.pc.toNat = 512 ∧ State.reset.mem.read 0 = 0xF0#8 ∧
  (∀ a, 80 ≤ a → State.reset.mem.read a = 0)

/-- INITIALIZE, for any glyph table of 80 bytes, writes the table at 0..79 and PC = 512 and nothing else, and once done
a second time changes nothing more (R191, D15); the driver's operation is that of the model's table. -/
def Obligations.InitializeWritesGlyphsAndPc : Prop :=
  (∀ s table, table.length = 80 → s.mem.wf →
    (∀ d, d < 80 → (initWith table s).mem.read d = table.getD d 0) ∧
    (∀ a, 80 ≤ a → (initWith table s).mem.read a = s.mem.read a) ∧
    (initWith table s).pc.toNat = 512 ∧ Unchanged [.pc, .memory] s (initWith table s) ∧
    Unchanged [] (initWith table s) (initWith table (initWith table s))) ∧
  (∀ s, s.halt = false → perform .initCore s = (.ok, initWith glyphs s)) ∧ glyphs.length = 80

/-- LOAD_PROGRAM of at most 3584 bytes copies exactly those bytes to 512 upward and changes nothing else; a longer one
copies nothing and latches CapacityError (R192, decision D17). -/
def Obligations.LoadProgramCopiesBytes : Prop := ∀ s bytes, s.halt = false → s.mem.wf →
  (bytes.length ≤ 3584 → ∃ t, perform (.loadProgram bytes) s = (.ok, t) ∧
    (∀ k (h : k < bytes.length), t.mem.read (512 + k) = bytes[k]) ∧
    (∀ a, a < 512 ∨ 512 + bytes.length ≤ a → t.mem.read a = s.mem.read a) ∧ Unchanged [.memory] s t) ∧
  (3584 < bytes.length → ∃ t, perform (.loadProgram bytes) s = (.fault .capacityError, t) ∧
    t.halt = true ∧ t.fault = some .capacityError ∧ Unchanged [.latch] s t)

/-- Which operation may change which store (R3, R20, R24, R172 and the table of 10_state.md, section 7): KEYS only
SET_KEYS and NEW, PC only STEP, INITIALIZE and NEW, and so on; HALT and FAULT only STEP, LOAD_PROGRAM and NEW, and HALT
is cleared by NEW alone (decision D2, log entry 7). -/
def Obligations.OperationsChangeOnlyTheirStores : Prop := ∀ op s t, t = (perform op s).2 →
  (t.keys ≠ s.keys → op = .new ∨ ∃ states, op = .setKeys states) ∧
  (t.pc ≠ s.pc → op = .new ∨ op = .initCore ∨ ∃ r, op = .step r) ∧
  (t.mem ≠ s.mem → op = .new ∨ op = .initCore ∨ (∃ bytes, op = .loadProgram bytes) ∨ ∃ r, op = .step r) ∧
  ((t.dt ≠ s.dt ∨ t.st ≠ s.st) → op = .new ∨ op = .tickTimers ∨ ∃ r, op = .step r) ∧
  ((t.v ≠ s.v ∨ t.i ≠ s.i ∨ t.stack ≠ s.stack ∨ t.sp ≠ s.sp ∨ t.disp ≠ s.disp) → op = .new ∨ ∃ r, op = .step r) ∧
  ((t.halt ≠ s.halt ∨ t.fault ≠ s.fault) → op = .new ∨ (∃ bytes, op = .loadProgram bytes) ∨ ∃ r, op = .step r) ∧
  (s.halt = true → t.halt = false → op = .new)

/-- While halted every operation but NEW and DISPLAY is refused with no state change; DISPLAY answers the cells; NEW
gives a running machine (R175, R139; decision D2). -/
def Obligations.HaltedCoreRefusesOperations : Prop := ∀ s, s.halt = true →
  (∀ op, op ≠ .new → op ≠ .display → perform op s = (.refused, s)) ∧
  perform .display s = (.cells s.disp, s) ∧ (perform .new s).1 = .ok ∧ (perform .new s).2.halt = false

/-- What STEP answers the driver (R64): an unknown word the event with the word, a latched fault its kind, and Ok else.
Two clauses rest on choices: that an unknown word leaves PC advanced by 2 (decision D5, R171, log entry 9), and that a fault
is latched in FAULT (decision D2, R174, log entry 7). -/
def Obligations.StepAnswersTheDriver : Prop := ∀ s r, s.halt = false → s.fault = none →
  (∀ w, FetchesWord s w → decode w = .unknown w →
    perform (.step r) s = (.unknownOpcode w, { s with pc := s.pc + 2, event := some w })) ∧
  (∀ t, step { s with rands := r :: s.rands } = .next t → ∀ k, t.fault = some k →
    perform (.step r) s = (.fault k, { t with rands := s.rands })) ∧
  (∀ w i t, FetchesWord s w → decode w = .instr i → step { s with rands := r :: s.rands } = .next t →
    t.fault = none → perform (.step r) s = (.ok, { t with rands := s.rands }))
end

