-- ==== Sys2Proof/Laws/Display.lean ====
section
/-! SUPPORT. The display: reading a cell, and what plotting one pixel does to every cell and to the collision. -/

namespace Sys2Proof.Machine

/-- The index of a cell on the display is one of DISP's (R19). -/
theorem cellIndex_lt {cx cy : Nat} (h : onDisplay cx cy) : cellIndex cx cy < 2048 := by
  unfold cellIndex
  omega

/-- Cells on the display have indices of their own. -/
theorem cellIndex_inj {cx cy px py : Nat} (h : onDisplay cx cy) (h' : onDisplay px py) :
    cellIndex cx cy = cellIndex px py ↔ cx = px ∧ cy = py := by
  unfold cellIndex
  omega

/-- A cell on the display is the bit of its index. -/
theorem cell_eq (d : Display) {cx cy : Nat} (h : onDisplay cx cy) : cell d cx cy = d.getLsbD (cellIndex cx cy) :=
  if_pos h

/-- There is no cell off the display. -/
theorem cell_off (d : Display) {cx cy : Nat} (h : ¬ onDisplay cx cy) : cell d cx cy = false := if_neg h

/-- Setting a cell sets its own bit and no other. -/
theorem getLsbD_setCell (d : Display) (k j : Nat) (b : Bool) (hj : j < 2048) :
    (setCell d k b).getLsbD j = if j = k then b else d.getLsbD j := by
  unfold setCell
  by_cases h : j = k
  · subst h
    cases b <;> simp [hj]
  · cases b
    · simp [hj, h]
    · simp [BitVec.getLsbD_twoPow, h, Ne.symm h]

/-- Two displays that agree on every cell are equal. -/
theorem display_ext {d e : Display} (h : ∀ cx cy, onDisplay cx cy → cell d cx cy = cell e cx cy) : d = e := by
  refine BitVec.eq_of_getLsbD_eq fun k hk => ?_
  have ho : onDisplay (k % 64) (k / 64) := by constructor <;> omega
  have hi : cellIndex (k % 64) (k / 64) = k := by unfold cellIndex; omega
  have := h _ _ ho
  rwa [cell_eq _ ho, cell_eq _ ho, hi] at this

@[simp] theorem cell_blankDisplay (cx cy : Nat) : cell blankDisplay cx cy = false := by
  simp [cell, blankDisplay]

/-- Plotting a pixel inverts its own cell, when it is on the display, and no other. -/
theorem cell_plot (px py cx cy : Nat) (a : Canvas) (h : onDisplay cx cy) :
    cell (plot px py a).1 cx cy = (cell a.1 cx cy ^^ decide (cx = px ∧ cy = py)) := by
  unfold plot
  split
  · rename_i hp
    have hiff := cellIndex_inj h hp
    split <;> rename_i hb <;> rw [cell_eq _ h, cell_eq _ h, getLsbD_setCell _ _ _ _ (cellIndex_lt h)] <;>
      by_cases he : cx = px ∧ cy = py <;> simp [hiff, he, hb]
  · rename_i hp
    have : ¬ (cx = px ∧ cy = py) := by rintro ⟨rfl, rfl⟩; exact hp h
    simp [this]

/-- Plotting a pixel records a collision exactly when it clears a set cell. -/
theorem plot_snd (px py : Nat) (a : Canvas) : (plot px py a).2 = (a.2 || cell a.1 px py) := by
  unfold plot
  split
  · rename_i h
    rw [cell_eq _ h]
    split <;> simp_all
  · rename_i h
    rw [cell_off _ h]; simp

end Sys2Proof.Machine
end

