-- ==== Sys2Proof/Laws/Memory.lean ====
section
/-! SUPPORT. Memory: every operation keeps the canonical form, a read gives the latest write, and a write leaves every
other byte alone. -/

namespace Sys2Proof.Machine

/-- A write leaves every other byte as it was, whatever the form of the list. -/
theorem Memory.read_write_other {a a' : Nat} (b : Byte) (h : a' ≠ a) (m : Memory) :
    (m.write a b).read a' = m.read a' := by
  have h' : a ≠ a' := Ne.symm h
  induction m with
  | nil => simp only [Memory.write]; split <;> simp [Memory.read, h']
  | cons c m ih =>
    simp only [Memory.write]
    split
    · simp only [Memory.read, ih]
    · split
      · rename_i hc
        split <;> simp [Memory.read, hc, h']
      · split <;> simp [Memory.read, h']

/-- An address below every listed one reads as its reset contents. -/
theorem Memory.read_of_forall_lt {a : Nat} (m : Memory) (h : ∀ c ∈ m, a < c.1) : m.read a = resetByte a := by
  induction m with
  | nil => rfl
  | cons c m ih =>
    have hc : ¬ c.1 = a := by have := h c (by simp); omega
    simp only [Memory.read, hc, if_false]
    exact ih fun d hd => h d (by simp [hd])

/-- A read after a write to the same address gives the value written. -/
theorem Memory.read_write_same (a : Nat) (b : Byte) (m : Memory) (hm : m.wf) : (m.write a b).read a = b := by
  induction m with
  | nil => simp only [Memory.write]; split <;> simp_all [Memory.read]
  | cons c m ih =>
    obtain ⟨hp, hv⟩ := hm
    obtain ⟨hc, hp⟩ := List.pairwise_cons.mp hp
    have hm : Memory.wf m := ⟨hp, fun d hd => hv d (by simp [hd])⟩
    simp only [Memory.write]
    split
    · rename_i hlt
      simp only [Memory.read, Nat.ne_of_lt hlt, if_false]
      exact ih hm
    · split
      · rename_i heq
        split
        · rename_i hb
          rw [hb]
          exact Memory.read_of_forall_lt m fun d hd => heq ▸ hc d hd
        · simp [Memory.read]
      · split
        · rename_i hlt hne hb
          rw [hb]
          refine Memory.read_of_forall_lt (c :: m) fun d hd => ?_
          rcases List.mem_cons.mp hd with rfl | hd
          · omega
          · have := hc d hd
            omega
        · simp [Memory.read]

/-- Every entry of a written memory is the written one or an old one. -/
theorem Memory.mem_write {a : Nat} {b : Byte} {m : Memory} {c : Host.Cell} (h : c ∈ m.write a b) :
    c ∈ m ∨ (c = (a, b) ∧ b ≠ resetByte a) := by
  induction m with
  | nil =>
    simp only [Memory.write] at h
    split at h
    · simp at h
    · exact .inr ⟨by simpa using h, ‹_›⟩
  | cons d m ih =>
    simp only [Memory.write] at h
    split at h
    · rcases List.mem_cons.mp h with rfl | h
      · simp
      · rcases ih h with h | h
        · exact .inl (by simp [h])
        · exact .inr h
    · split at h
      · split at h
        · exact .inl (by simp [h])
        · rcases List.mem_cons.mp h with rfl | h
          · exact .inr ⟨rfl, ‹_›⟩
          · exact .inl (by simp [h])
      · split at h
        · exact .inl h
        · rcases List.mem_cons.mp h with rfl | h
          · exact .inr ⟨rfl, ‹_›⟩
          · exact .inl h

/-- A write inside MEM keeps the canonical form. -/
theorem Memory.write_wf {a : Nat} (b : Byte) (m : Memory) (ha : a < 4096) (hm : m.wf) :
    (m.write a b).wf := by
  refine ⟨?_, fun c hc => ?_⟩
  · have hp := hm.1
    clear hm
    induction m with
    | nil => simp only [Memory.write]; split <;> simp
    | cons c m ih =>
      obtain ⟨hc, hp'⟩ := List.pairwise_cons.mp hp
      simp only [Memory.write]
      split
      · rename_i hlt
        refine List.pairwise_cons.mpr ⟨fun d hd => ?_, ih hp'⟩
        rcases Memory.mem_write hd with hd | ⟨rfl, -⟩
        · exact hc d hd
        · exact hlt
      · split
        · rename_i heq
          split
          · exact hp'
          · exact List.pairwise_cons.mpr ⟨fun d hd => heq ▸ hc d hd, hp'⟩
        · split
          · exact hp
          · refine List.pairwise_cons.mpr ⟨fun d hd => ?_, hp⟩
            rcases List.mem_cons.mp hd with rfl | hd
            · show a < d.1; omega
            · have := hc d hd
              show a < d.1; omega
  · rcases Memory.mem_write hc with hc | ⟨rfl, hb⟩
    · exact hm.2 c hc
    · exact ⟨ha, hb⟩

/-- A block write inside MEM keeps the canonical form. -/
theorem Memory.writeBytes_wf (bs : List Byte) (a : Nat) (m : Memory) (ha : a + bs.length ≤ 4096)
    (hm : m.wf) : (m.writeBytes a bs).wf := by
  induction bs generalizing a m with
  | nil => exact hm
  | cons b bs ih =>
    simp only [List.length_cons] at ha
    exact ih (a + 1) _ (by omega) (Memory.write_wf b m (by omega) hm)

/-- A block write leaves every byte outside its span as it was. -/
theorem Memory.read_writeBytes_outside (bs : List Byte) (a a' : Nat) (m : Memory)
    (h : a' < a ∨ a + bs.length ≤ a') : (m.writeBytes a bs).read a' = m.read a' := by
  induction bs generalizing a m with
  | nil => rfl
  | cons b bs ih =>
    simp only [List.length_cons] at h
    rw [Memory.writeBytes, ih (a + 1) _ (by omega), Memory.read_write_other b (by omega)]

/-- A block write stores its k-th byte at a + k. -/
theorem Memory.read_writeBytes_inside (bs : List Byte) (a k : Nat) (m : Memory)
    (ha : a + bs.length ≤ 4096) (hm : m.wf) (hk : k < bs.length) :
    (m.writeBytes a bs).read (a + k) = bs[k] := by
  induction bs generalizing a k m with
  | nil => simp at hk
  | cons b bs ih =>
    simp only [List.length_cons] at ha hk
    rw [Memory.writeBytes]
    cases k with
    | zero => rw [Memory.read_writeBytes_outside _ _ _ _ (by omega), Nat.add_zero,
        Memory.read_write_same _ _ _ hm, List.getElem_cons_zero]
    | succ k =>
      have hw := Memory.write_wf (a := a) b m (by omega) hm
      have := ih (a + 1) k _ (by omega) hw (by omega)
      rw [show a + (k + 1) = a + 1 + k by omega, this, List.getElem_cons_succ]

/-- The k-th byte of a block read. -/
theorem Memory.getElem_readBytes (m : Memory) (a n k : Nat) (hk : k < (m.readBytes a n).length) :
    (m.readBytes a n)[k] = m.read (a + k) := by
  simp [Memory.readBytes]

@[simp] theorem Memory.length_readBytes (m : Memory) (a n : Nat) : (m.readBytes a n).length = n := by
  simp [Memory.readBytes]

/-- The memory of the state after reset, which lists nothing, has the canonical form. -/
theorem Memory.reset_wf : Memory.wf State.reset.mem := by
  simp [State.reset, Memory.wf]

end Sys2Proof.Machine
end

