-- ==== Sys2Proof/Laws/Ops.lean ====
section
/-! SUPPORT. One lemma per shared operation, saying everything the operation can do, and the step's inversion. -/

namespace Sys2Proof.Machine

/-! ### Faults, stack, fetch -/

/-- An operation with one test completes with its own state, or the fault is latched and nothing else happens. -/
theorem orRaise_next {k : Fault} {s t : State} {o : Option State} :
    orRaise k s o = .next t ↔ o = some t ∨ (o = none ∧ t = latch k s) := by
  cases o <;> simp [orRaise, raise, eq_comm]

/-- Push stores at the free slot and counts up, and can do nothing else. -/
theorem push_eq_some {a : Word} {s t : State} :
    push a s = some t ↔ ∃ h : s.sp.val < 16,
      t = { s with stack := s.stack.set s.sp.val a h, sp := ⟨s.sp.val + 1, by omega⟩ } := by
  unfold push
  split
  · rename_i h
    simp [h, eq_comm]
  · rename_i h
    simp [h]

/-- Push fails exactly when 16 addresses are stored. -/
theorem push_eq_none {a : Word} {s : State} : push a s = none ↔ s.sp.val = 16 := by
  unfold push
  split <;> simp <;> omega

/-- Pop answers the newest address and counts down, and can do nothing else. -/
theorem pop_eq_some {s : State} {p : Word × State} :
    pop s = some p ↔ ∃ h : 0 < s.sp.val,
      p = (s.stack[s.sp.val - 1]'(by have := s.sp.isLt; show s.sp.val - 1 < 16; omega), { s with sp := ⟨s.sp.val - 1, by omega⟩ }) := by
  unfold pop
  split
  · rename_i h
    simp [h, eq_comm]
  · rename_i h
    simp [h]

/-- Pop fails exactly when no address is stored. -/
theorem pop_eq_none {s : State} : pop s = none ↔ s.sp.val = 0 := by
  unfold pop
  split
  · simp; omega
  · simp; omega

/-- A fetch that answers read the two bytes at PC, high byte first. -/
theorem fetchWord_eq_some {s : State} {w : Word} :
    fetchWord s = some w ↔ s.pc.toNat + 1 ≤ 4095 ∧
      wordOfBytes (s.mem.read s.pc.toNat) (s.mem.read (s.pc.toNat + 1)) = w := by
  unfold fetchWord
  split <;> simp_all

/-- A fetch fails exactly when PC + 1 is past 4095. -/
theorem fetchWord_eq_none {s : State} : fetchWord s = none ↔ 4095 < s.pc.toNat + 1 := by
  unfold fetchWord
  split <;> simp <;> omega

/-! ### Operands and flags -/

theorem keyIdx_eq_some {b : Byte} {k : Fin 16} : keyIdx b = some k ↔ b.toNat = k.val := by
  unfold keyIdx
  split
  · simp [Fin.ext_iff]
  · have := k.isLt
    simp; omega

theorem keyIdx_eq_none {b : Byte} : keyIdx b = none ↔ 15 < b.toNat := by
  unfold keyIdx
  split <;> simp <;> omega

/-- The lowest key that is down: it is down, and every key below it is up. -/
theorem lowestKey_eq_some {ks : Keys} {k : Fin 16} :
    lowestKey ks = some k ↔ ks[k] = true ∧ ∀ j : Fin 16, j < k → ks[j] = false := by
  unfold lowestKey
  constructor
  · intro h
    obtain ⟨hk, as, bs, hl, has⟩ := List.find?_eq_some_iff_append.mp h
    refine ⟨hk, fun j hj => ?_⟩
    have hs : (List.finRange 16).Pairwise (· < ·) := List.pairwise_lt_finRange 16
    have hm : j ∈ List.finRange 16 := List.mem_finRange j
    rw [hl] at hs hm
    obtain ⟨-, hkb, -⟩ := List.pairwise_append.mp hs
    rcases List.mem_append.mp hm with hm | hm
    · simpa using has j hm
    · rcases List.mem_cons.mp hm with rfl | hm
      · exact absurd hj (lt_irrefl _)
      · have := (List.pairwise_cons.mp hkb).1 j hm
        exact absurd hj (not_lt.mpr this.le)
  · rintro ⟨hk, hj⟩
    cases hf : (List.finRange 16).find? fun k => ks[k] with
    | none => exact absurd hk (by simpa using List.find?_eq_none.mp hf k (List.mem_finRange k))
    | some k' =>
      obtain ⟨hk', as, bs, hl, has⟩ := List.find?_eq_some_iff_append.mp hf
      have hs : (List.finRange 16).Pairwise (· < ·) := List.pairwise_lt_finRange 16
      have hm : k ∈ List.finRange 16 := List.mem_finRange k
      rw [hl] at hs hm
      obtain ⟨-, hkb, -⟩ := List.pairwise_append.mp hs
      rcases List.mem_append.mp hm with hm | hm
      · have := has k hm
        simp [hk] at this
      · rcases List.mem_cons.mp hm with rfl | hm
        · rfl
        · have := hj k' ((List.pairwise_cons.mp hkb).1 k hm)
          simp only [this] at hk'
          exact absurd hk' (by simp)

theorem lowestKey_eq_none {ks : Keys} : lowestKey ks = none ↔ ∀ k : Fin 16, ks[k] = false := by
  simp [lowestKey]

@[simp] theorem length_regBlock (s : State) (x : Reg) : (regBlock s x).length = x.val + 1 := by
  simp [regBlock]

/-- The k-th byte Fx55 stores is V[k]. -/
theorem getElem_regBlock (s : State) (x : Reg) (k : Nat) (hk : k < (regBlock s x).length) :
    (regBlock s x)[k] = getV s ⟨k, by have := x.isLt; simp at hk; omega⟩ := by
  simp [regBlock]

@[simp] theorem length_bcdDigits (b : Byte) : (bcdDigits b).length = 3 := rfl

/-- Addition wraps at 256. -/
theorem addByte_toNat (a b : Byte) : (addByte a b).toNat = (a.toNat + b.toNat) % 256 := by
  simp [addByte]

/-- Subtraction wraps at 256. -/
theorem subByte_toNat (a b : Byte) :
    (subByte a b).toNat = if b.toNat ≤ a.toNat then a.toNat - b.toNat else a.toNat + 256 - b.toNat := by
  have ha := a.isLt
  have hb := b.isLt
  simp only [subByte, BitVec.toNat_ofNat]
  split <;> omega

@[simp] theorem zext8_toNat (b : Byte) : (zext8 b).toNat = b.toNat := by
  have := b.isLt
  simp [zext8]; omega

@[simp] theorem zext12_toNat (n : Addr12) : (zext12 n).toNat = n.toNat := by
  have := n.isLt
  simp [zext12]; omega

/-! ### Stores and key skips -/

/-- A store at I writes its bytes, or, when the span passes 4095, latches AddressOutOfRange and writes none. -/
theorem storeAtI_next {bs : List Byte} {s t : State} :
    storeAtI bs s = .next t ↔
      (ea s 0 + bs.length ≤ 4096 ∧ t = { s with mem := s.mem.writeBytes (ea s 0) bs }) ∨
      (4096 < ea s 0 + bs.length ∧ t = latch .addressOutOfRange s) := by
  unfold storeAtI
  split
  · rename_i h
    have h' : ¬ 4096 < ea s 0 + bs.length := by simpa using h
    simp [h', eq_comm]; omega
  · rename_i h
    have h' : ¬ ea s 0 + bs.length ≤ 4096 := h
    simp [h', raise, eq_comm]; omega

/-- A skip on a key tests the key that Vx names, or latches KeyIndexOutOfRange when Vx is above 15. -/
theorem skipOnKey_next {x : Reg} {down : Bool} {s t : State} :
    skipOnKey x down s = .next t ↔
      (∃ h : (getV s x).toNat < 16, t = skipIf (s.keys[(getV s x).toNat]'h == down) s) ∨
      (15 < (getV s x).toNat ∧ t = latch .keyIndexOutOfRange s) := by
  unfold skipOnKey
  rw [orRaise_next]
  constructor
  · rintro (h | ⟨h, rfl⟩)
    · obtain ⟨k, hk, rfl⟩ := Option.map_eq_some_iff.mp h
      have hk := keyIdx_eq_some.mp hk
      exact .inl ⟨by have := k.isLt; omega, by simp [hk]⟩
    · exact .inr ⟨keyIdx_eq_none.mp (Option.map_eq_none_iff.mp h), rfl⟩
  · rintro (⟨h, rfl⟩ | ⟨h, rfl⟩)
    · exact .inl (Option.map_eq_some_iff.mpr ⟨⟨_, h⟩, keyIdx_eq_some.mpr rfl, rfl⟩)
    · exact .inr ⟨Option.map_eq_none_iff.mpr (keyIdx_eq_none.mpr h), rfl⟩

/-! ### The step -/

/-- Everything a STEP that completes has done: it failed its fetch, or reported an unknown word, or executed the
decoded instruction from the post-fetch state. -/
theorem step_next {s t : State} (h : step s = .next t) :
    s.halt = false ∧
      ((fetchWord s = none ∧ t = latch .addressOutOfRange (clearEvent s)) ∨
       (∃ w u, fetchWord s = some w ∧ decode w = .unknown u ∧ t = reportUnknown u (afterFetch s)) ∨
       ∃ w i, fetchWord s = some w ∧ decode w = .instr i ∧ exec i (afterFetch s) = .next t) := by
  unfold step at h
  split at h
  · simp [haltedStep] at h
  · refine ⟨by simp_all, ?_⟩
    split at h
    · rename_i hf
      exact .inl ⟨hf, by simpa [fetchFault, raise, eq_comm] using h⟩
    · rename_i w hf
      unfold runWord at h
      split at h
      · rename_i u hd
        exact .inr (.inl ⟨w, u, hf, hd, by simpa [eq_comm] using h⟩)
      · rename_i i hd
        exact .inr (.inr ⟨w, i, hf, hd, h⟩)

end Sys2Proof.Machine
end

