-- ==== Sys2Proof/Laws/State.lean ====
section
/-! SUPPORT. The state record under each of its updates: one lemma per field per update, and reading a register after
a write. -/

namespace Sys2Proof.Machine

@[simp] theorem setV_v (x : Reg) (b : Byte) (s : State) : (setV x b s).v = s.v.set x.val b := rfl
@[simp] theorem setV_i (x : Reg) (b : Byte) (s : State) : (setV x b s).i = s.i := rfl
@[simp] theorem setV_pc (x : Reg) (b : Byte) (s : State) : (setV x b s).pc = s.pc := rfl
@[simp] theorem setV_stack (x : Reg) (b : Byte) (s : State) : (setV x b s).stack = s.stack := rfl
@[simp] theorem setV_sp (x : Reg) (b : Byte) (s : State) : (setV x b s).sp = s.sp := rfl
@[simp] theorem setV_dt (x : Reg) (b : Byte) (s : State) : (setV x b s).dt = s.dt := rfl
@[simp] theorem setV_st (x : Reg) (b : Byte) (s : State) : (setV x b s).st = s.st := rfl
@[simp] theorem setV_mem (x : Reg) (b : Byte) (s : State) : (setV x b s).mem = s.mem := rfl
@[simp] theorem setV_disp (x : Reg) (b : Byte) (s : State) : (setV x b s).disp = s.disp := rfl
@[simp] theorem setV_keys (x : Reg) (b : Byte) (s : State) : (setV x b s).keys = s.keys := rfl
@[simp] theorem setV_halt (x : Reg) (b : Byte) (s : State) : (setV x b s).halt = s.halt := rfl
@[simp] theorem setV_fault (x : Reg) (b : Byte) (s : State) : (setV x b s).fault = s.fault := rfl
@[simp] theorem setV_event (x : Reg) (b : Byte) (s : State) : (setV x b s).event = s.event := rfl
@[simp] theorem setV_rands (x : Reg) (b : Byte) (s : State) : (setV x b s).rands = s.rands := rfl
@[simp] theorem setV_draws (x : Reg) (b : Byte) (s : State) : (setV x b s).draws = s.draws := rfl

@[simp] theorem setI_v (a : Word) (s : State) : (setI a s).v = s.v := rfl
@[simp] theorem setI_i (a : Word) (s : State) : (setI a s).i = a := rfl
@[simp] theorem setI_pc (a : Word) (s : State) : (setI a s).pc = s.pc := rfl
@[simp] theorem setI_stack (a : Word) (s : State) : (setI a s).stack = s.stack := rfl
@[simp] theorem setI_sp (a : Word) (s : State) : (setI a s).sp = s.sp := rfl
@[simp] theorem setI_dt (a : Word) (s : State) : (setI a s).dt = s.dt := rfl
@[simp] theorem setI_st (a : Word) (s : State) : (setI a s).st = s.st := rfl
@[simp] theorem setI_mem (a : Word) (s : State) : (setI a s).mem = s.mem := rfl
@[simp] theorem setI_disp (a : Word) (s : State) : (setI a s).disp = s.disp := rfl
@[simp] theorem setI_keys (a : Word) (s : State) : (setI a s).keys = s.keys := rfl
@[simp] theorem setI_halt (a : Word) (s : State) : (setI a s).halt = s.halt := rfl
@[simp] theorem setI_fault (a : Word) (s : State) : (setI a s).fault = s.fault := rfl
@[simp] theorem setI_event (a : Word) (s : State) : (setI a s).event = s.event := rfl
@[simp] theorem setI_rands (a : Word) (s : State) : (setI a s).rands = s.rands := rfl
@[simp] theorem setI_draws (a : Word) (s : State) : (setI a s).draws = s.draws := rfl

@[simp] theorem jump_v (a : Word) (s : State) : (jump a s).v = s.v := rfl
@[simp] theorem jump_i (a : Word) (s : State) : (jump a s).i = s.i := rfl
@[simp] theorem jump_pc (a : Word) (s : State) : (jump a s).pc = a := rfl
@[simp] theorem jump_stack (a : Word) (s : State) : (jump a s).stack = s.stack := rfl
@[simp] theorem jump_sp (a : Word) (s : State) : (jump a s).sp = s.sp := rfl
@[simp] theorem jump_dt (a : Word) (s : State) : (jump a s).dt = s.dt := rfl
@[simp] theorem jump_st (a : Word) (s : State) : (jump a s).st = s.st := rfl
@[simp] theorem jump_mem (a : Word) (s : State) : (jump a s).mem = s.mem := rfl
@[simp] theorem jump_disp (a : Word) (s : State) : (jump a s).disp = s.disp := rfl
@[simp] theorem jump_keys (a : Word) (s : State) : (jump a s).keys = s.keys := rfl
@[simp] theorem jump_halt (a : Word) (s : State) : (jump a s).halt = s.halt := rfl
@[simp] theorem jump_fault (a : Word) (s : State) : (jump a s).fault = s.fault := rfl
@[simp] theorem jump_event (a : Word) (s : State) : (jump a s).event = s.event := rfl
@[simp] theorem jump_rands (a : Word) (s : State) : (jump a s).rands = s.rands := rfl
@[simp] theorem jump_draws (a : Word) (s : State) : (jump a s).draws = s.draws := rfl

@[simp] theorem skip_v (s : State) : (skip s).v = s.v := rfl
@[simp] theorem skip_i (s : State) : (skip s).i = s.i := rfl
@[simp] theorem skip_pc (s : State) : (skip s).pc = s.pc + 2 := rfl
@[simp] theorem skip_stack (s : State) : (skip s).stack = s.stack := rfl
@[simp] theorem skip_sp (s : State) : (skip s).sp = s.sp := rfl
@[simp] theorem skip_dt (s : State) : (skip s).dt = s.dt := rfl
@[simp] theorem skip_st (s : State) : (skip s).st = s.st := rfl
@[simp] theorem skip_mem (s : State) : (skip s).mem = s.mem := rfl
@[simp] theorem skip_disp (s : State) : (skip s).disp = s.disp := rfl
@[simp] theorem skip_keys (s : State) : (skip s).keys = s.keys := rfl
@[simp] theorem skip_halt (s : State) : (skip s).halt = s.halt := rfl
@[simp] theorem skip_fault (s : State) : (skip s).fault = s.fault := rfl
@[simp] theorem skip_event (s : State) : (skip s).event = s.event := rfl
@[simp] theorem skip_rands (s : State) : (skip s).rands = s.rands := rfl
@[simp] theorem skip_draws (s : State) : (skip s).draws = s.draws := rfl

@[simp] theorem rewind_v (s : State) : (rewind s).v = s.v := rfl
@[simp] theorem rewind_i (s : State) : (rewind s).i = s.i := rfl
@[simp] theorem rewind_pc (s : State) : (rewind s).pc = s.pc - 2 := rfl
@[simp] theorem rewind_stack (s : State) : (rewind s).stack = s.stack := rfl
@[simp] theorem rewind_sp (s : State) : (rewind s).sp = s.sp := rfl
@[simp] theorem rewind_dt (s : State) : (rewind s).dt = s.dt := rfl
@[simp] theorem rewind_st (s : State) : (rewind s).st = s.st := rfl
@[simp] theorem rewind_mem (s : State) : (rewind s).mem = s.mem := rfl
@[simp] theorem rewind_disp (s : State) : (rewind s).disp = s.disp := rfl
@[simp] theorem rewind_keys (s : State) : (rewind s).keys = s.keys := rfl
@[simp] theorem rewind_halt (s : State) : (rewind s).halt = s.halt := rfl
@[simp] theorem rewind_fault (s : State) : (rewind s).fault = s.fault := rfl
@[simp] theorem rewind_event (s : State) : (rewind s).event = s.event := rfl
@[simp] theorem rewind_rands (s : State) : (rewind s).rands = s.rands := rfl
@[simp] theorem rewind_draws (s : State) : (rewind s).draws = s.draws := rfl

@[simp] theorem latch_v (k : Fault) (s : State) : (latch k s).v = s.v := rfl
@[simp] theorem latch_i (k : Fault) (s : State) : (latch k s).i = s.i := rfl
@[simp] theorem latch_pc (k : Fault) (s : State) : (latch k s).pc = s.pc := rfl
@[simp] theorem latch_stack (k : Fault) (s : State) : (latch k s).stack = s.stack := rfl
@[simp] theorem latch_sp (k : Fault) (s : State) : (latch k s).sp = s.sp := rfl
@[simp] theorem latch_dt (k : Fault) (s : State) : (latch k s).dt = s.dt := rfl
@[simp] theorem latch_st (k : Fault) (s : State) : (latch k s).st = s.st := rfl
@[simp] theorem latch_mem (k : Fault) (s : State) : (latch k s).mem = s.mem := rfl
@[simp] theorem latch_disp (k : Fault) (s : State) : (latch k s).disp = s.disp := rfl
@[simp] theorem latch_keys (k : Fault) (s : State) : (latch k s).keys = s.keys := rfl
@[simp] theorem latch_halt (k : Fault) (s : State) : (latch k s).halt = true := rfl
@[simp] theorem latch_fault (k : Fault) (s : State) : (latch k s).fault = some k := rfl
@[simp] theorem latch_event (k : Fault) (s : State) : (latch k s).event = s.event := rfl
@[simp] theorem latch_rands (k : Fault) (s : State) : (latch k s).rands = s.rands := rfl
@[simp] theorem latch_draws (k : Fault) (s : State) : (latch k s).draws = s.draws := rfl

@[simp] theorem clearEvent_v (s : State) : (clearEvent s).v = s.v := rfl
@[simp] theorem clearEvent_i (s : State) : (clearEvent s).i = s.i := rfl
@[simp] theorem clearEvent_pc (s : State) : (clearEvent s).pc = s.pc := rfl
@[simp] theorem clearEvent_stack (s : State) : (clearEvent s).stack = s.stack := rfl
@[simp] theorem clearEvent_sp (s : State) : (clearEvent s).sp = s.sp := rfl
@[simp] theorem clearEvent_dt (s : State) : (clearEvent s).dt = s.dt := rfl
@[simp] theorem clearEvent_st (s : State) : (clearEvent s).st = s.st := rfl
@[simp] theorem clearEvent_mem (s : State) : (clearEvent s).mem = s.mem := rfl
@[simp] theorem clearEvent_disp (s : State) : (clearEvent s).disp = s.disp := rfl
@[simp] theorem clearEvent_keys (s : State) : (clearEvent s).keys = s.keys := rfl
@[simp] theorem clearEvent_halt (s : State) : (clearEvent s).halt = s.halt := rfl
@[simp] theorem clearEvent_fault (s : State) : (clearEvent s).fault = s.fault := rfl
@[simp] theorem clearEvent_event (s : State) : (clearEvent s).event = none := rfl
@[simp] theorem clearEvent_rands (s : State) : (clearEvent s).rands = s.rands := rfl
@[simp] theorem clearEvent_draws (s : State) : (clearEvent s).draws = s.draws := rfl

@[simp] theorem afterFetch_v (s : State) : (afterFetch s).v = s.v := rfl
@[simp] theorem afterFetch_i (s : State) : (afterFetch s).i = s.i := rfl
@[simp] theorem afterFetch_pc (s : State) : (afterFetch s).pc = s.pc + 2 := rfl
@[simp] theorem afterFetch_stack (s : State) : (afterFetch s).stack = s.stack := rfl
@[simp] theorem afterFetch_sp (s : State) : (afterFetch s).sp = s.sp := rfl
@[simp] theorem afterFetch_dt (s : State) : (afterFetch s).dt = s.dt := rfl
@[simp] theorem afterFetch_st (s : State) : (afterFetch s).st = s.st := rfl
@[simp] theorem afterFetch_mem (s : State) : (afterFetch s).mem = s.mem := rfl
@[simp] theorem afterFetch_disp (s : State) : (afterFetch s).disp = s.disp := rfl
@[simp] theorem afterFetch_keys (s : State) : (afterFetch s).keys = s.keys := rfl
@[simp] theorem afterFetch_halt (s : State) : (afterFetch s).halt = s.halt := rfl
@[simp] theorem afterFetch_fault (s : State) : (afterFetch s).fault = s.fault := rfl
@[simp] theorem afterFetch_event (s : State) : (afterFetch s).event = none := rfl
@[simp] theorem afterFetch_rands (s : State) : (afterFetch s).rands = s.rands := rfl
@[simp] theorem afterFetch_draws (s : State) : (afterFetch s).draws = s.draws := rfl

@[simp] theorem reportUnknown_v (w : Word) (s : State) : (reportUnknown w s).v = s.v := rfl
@[simp] theorem reportUnknown_i (w : Word) (s : State) : (reportUnknown w s).i = s.i := rfl
@[simp] theorem reportUnknown_pc (w : Word) (s : State) : (reportUnknown w s).pc = s.pc := rfl
@[simp] theorem reportUnknown_stack (w : Word) (s : State) : (reportUnknown w s).stack = s.stack := rfl
@[simp] theorem reportUnknown_sp (w : Word) (s : State) : (reportUnknown w s).sp = s.sp := rfl
@[simp] theorem reportUnknown_dt (w : Word) (s : State) : (reportUnknown w s).dt = s.dt := rfl
@[simp] theorem reportUnknown_st (w : Word) (s : State) : (reportUnknown w s).st = s.st := rfl
@[simp] theorem reportUnknown_mem (w : Word) (s : State) : (reportUnknown w s).mem = s.mem := rfl
@[simp] theorem reportUnknown_disp (w : Word) (s : State) : (reportUnknown w s).disp = s.disp := rfl
@[simp] theorem reportUnknown_keys (w : Word) (s : State) : (reportUnknown w s).keys = s.keys := rfl
@[simp] theorem reportUnknown_halt (w : Word) (s : State) : (reportUnknown w s).halt = s.halt := rfl
@[simp] theorem reportUnknown_fault (w : Word) (s : State) : (reportUnknown w s).fault = s.fault := rfl
@[simp] theorem reportUnknown_event (w : Word) (s : State) : (reportUnknown w s).event = some w := rfl
@[simp] theorem reportUnknown_rands (w : Word) (s : State) : (reportUnknown w s).rands = s.rands := rfl
@[simp] theorem reportUnknown_draws (w : Word) (s : State) : (reportUnknown w s).draws = s.draws := rfl

@[simp] theorem loadBlock_i (s : State) (x : Reg) : (loadBlock s x).i = s.i := rfl
@[simp] theorem loadBlock_pc (s : State) (x : Reg) : (loadBlock s x).pc = s.pc := rfl
@[simp] theorem loadBlock_stack (s : State) (x : Reg) : (loadBlock s x).stack = s.stack := rfl
@[simp] theorem loadBlock_sp (s : State) (x : Reg) : (loadBlock s x).sp = s.sp := rfl
@[simp] theorem loadBlock_dt (s : State) (x : Reg) : (loadBlock s x).dt = s.dt := rfl
@[simp] theorem loadBlock_st (s : State) (x : Reg) : (loadBlock s x).st = s.st := rfl
@[simp] theorem loadBlock_mem (s : State) (x : Reg) : (loadBlock s x).mem = s.mem := rfl
@[simp] theorem loadBlock_disp (s : State) (x : Reg) : (loadBlock s x).disp = s.disp := rfl
@[simp] theorem loadBlock_keys (s : State) (x : Reg) : (loadBlock s x).keys = s.keys := rfl
@[simp] theorem loadBlock_halt (s : State) (x : Reg) : (loadBlock s x).halt = s.halt := rfl
@[simp] theorem loadBlock_fault (s : State) (x : Reg) : (loadBlock s x).fault = s.fault := rfl
@[simp] theorem loadBlock_event (s : State) (x : Reg) : (loadBlock s x).event = s.event := rfl
@[simp] theorem loadBlock_rands (s : State) (x : Reg) : (loadBlock s x).rands = s.rands := rfl
@[simp] theorem loadBlock_draws (s : State) (x : Reg) : (loadBlock s x).draws = s.draws := rfl

/-- Reading V[y] after `V[x] <- b`. -/
@[simp] theorem getV_setV (x y : Reg) (b : Byte) (s : State) :
    getV (setV x b s) y = if x = y then b else getV s y := by
  simp only [getV, setV_v, Fin.getElem_fin, Vector.getElem_set, Fin.ext_iff]

/-- Reading V[k] after Fx65. -/
@[simp] theorem getV_loadBlock (s : State) (x k : Reg) :
    getV (loadBlock s x) k = if k.val ≤ x.val then s.mem.read (ea s k.val) else getV s k := by
  simp [getV, loadBlock]

@[simp] theorem getV_setI (a : Word) (s : State) (y : Reg) : getV (setI a s) y = getV s y := rfl
@[simp] theorem getV_jump (a : Word) (s : State) (y : Reg) : getV (jump a s) y = getV s y := rfl
@[simp] theorem getV_skipIf (c : Bool) (s : State) (y : Reg) : getV (skipIf c s) y = getV s y := by cases c <;> rfl
@[simp] theorem getV_skip (s : State) (y : Reg) : getV (skip s) y = getV s y := rfl
@[simp] theorem getV_rewind (s : State) (y : Reg) : getV (rewind s) y = getV s y := rfl
@[simp] theorem getV_latch (k : Fault) (s : State) (y : Reg) : getV (latch k s) y = getV s y := rfl
@[simp] theorem getV_clearEvent (s : State) (y : Reg) : getV (clearEvent s) y = getV s y := rfl
@[simp] theorem getV_afterFetch (s : State) (y : Reg) : getV (afterFetch s) y = getV s y := rfl
@[simp] theorem getV_reportUnknown (w : Word) (s : State) (y : Reg) : getV (reportUnknown w s) y = getV s y := rfl

/-- Skipping on a condition changes PC only, by 0 or by 2. -/
theorem skipIf_eq (c : Bool) (s : State) : skipIf c s = { s with pc := if c then s.pc + 2 else s.pc } := by
  cases c <;> rfl

@[simp] theorem skipIf_v (c : Bool) (s : State) : (skipIf c s).v = s.v := by cases c <;> rfl
@[simp] theorem skipIf_i (c : Bool) (s : State) : (skipIf c s).i = s.i := by cases c <;> rfl
@[simp] theorem skipIf_pc (c : Bool) (s : State) : (skipIf c s).pc = if c then s.pc + 2 else s.pc := by
  cases c <;> rfl
@[simp] theorem skipIf_stack (c : Bool) (s : State) : (skipIf c s).stack = s.stack := by cases c <;> rfl
@[simp] theorem skipIf_sp (c : Bool) (s : State) : (skipIf c s).sp = s.sp := by cases c <;> rfl
@[simp] theorem skipIf_dt (c : Bool) (s : State) : (skipIf c s).dt = s.dt := by cases c <;> rfl
@[simp] theorem skipIf_st (c : Bool) (s : State) : (skipIf c s).st = s.st := by cases c <;> rfl
@[simp] theorem skipIf_mem (c : Bool) (s : State) : (skipIf c s).mem = s.mem := by cases c <;> rfl
@[simp] theorem skipIf_disp (c : Bool) (s : State) : (skipIf c s).disp = s.disp := by cases c <;> rfl
@[simp] theorem skipIf_keys (c : Bool) (s : State) : (skipIf c s).keys = s.keys := by cases c <;> rfl
@[simp] theorem skipIf_halt (c : Bool) (s : State) : (skipIf c s).halt = s.halt := by cases c <;> rfl
@[simp] theorem skipIf_fault (c : Bool) (s : State) : (skipIf c s).fault = s.fault := by cases c <;> rfl
@[simp] theorem skipIf_event (c : Bool) (s : State) : (skipIf c s).event = s.event := by cases c <;> rfl
@[simp] theorem skipIf_rands (c : Bool) (s : State) : (skipIf c s).rands = s.rands := by cases c <;> rfl
@[simp] theorem skipIf_draws (c : Bool) (s : State) : (skipIf c s).draws = s.draws := by cases c <;> rfl

/-- A draw changes the random input only. -/
theorem drawByte_snd (s : State) :
    (drawByte s).2 = { s with rands := s.rands.tail, draws := if s.rands = [] then s.draws + 1 else s.draws } := by
  obtain ⟨v, i, pc, stack, sp, dt, st, mem, disp, keys, halt, fault, event, rands, draws⟩ := s
  cases rands <;> rfl

@[simp] theorem drawByte_v (s : State) : (drawByte s).2.v = s.v := by rw [drawByte_snd]
@[simp] theorem drawByte_i (s : State) : (drawByte s).2.i = s.i := by rw [drawByte_snd]
@[simp] theorem drawByte_pc (s : State) : (drawByte s).2.pc = s.pc := by rw [drawByte_snd]
@[simp] theorem drawByte_stack (s : State) : (drawByte s).2.stack = s.stack := by rw [drawByte_snd]
@[simp] theorem drawByte_sp (s : State) : (drawByte s).2.sp = s.sp := by rw [drawByte_snd]
@[simp] theorem drawByte_dt (s : State) : (drawByte s).2.dt = s.dt := by rw [drawByte_snd]
@[simp] theorem drawByte_st (s : State) : (drawByte s).2.st = s.st := by rw [drawByte_snd]
@[simp] theorem drawByte_mem (s : State) : (drawByte s).2.mem = s.mem := by rw [drawByte_snd]
@[simp] theorem drawByte_disp (s : State) : (drawByte s).2.disp = s.disp := by rw [drawByte_snd]
@[simp] theorem drawByte_keys (s : State) : (drawByte s).2.keys = s.keys := by rw [drawByte_snd]
@[simp] theorem drawByte_halt (s : State) : (drawByte s).2.halt = s.halt := by rw [drawByte_snd]
@[simp] theorem drawByte_fault (s : State) : (drawByte s).2.fault = s.fault := by rw [drawByte_snd]
@[simp] theorem drawByte_event (s : State) : (drawByte s).2.event = s.event := by rw [drawByte_snd]
@[simp] theorem getV_drawByte (s : State) (y : Reg) : getV (drawByte s).2 y = getV s y := by simp only [getV, drawByte_v]

end Sys2Proof.Machine
end

