-- ==== Sys2Proof/Laws/Exec.lean ====
section
/-! SUPPORT. The meanings that have a test or a choice, each inverted once: what the next state is when the test passes,
and what it is when it fails. -/

namespace Sys2Proof.Machine

/-- RET pops PC, or latches StackUnderflow. -/
theorem execRet_next {s t : State} :
    execRet s = .next t ↔
      (∃ h : 0 < s.sp.val, t = { s with
        pc := s.stack[s.sp.val - 1]'(by have := s.sp.isLt; omega), sp := ⟨s.sp.val - 1, by omega⟩ }) ∨
      (s.sp.val = 0 ∧ t = latch .stackUnderflow s) := by
  rw [execRet, orRaise_next, Option.map_eq_none_iff, pop_eq_none]
  refine or_congr_left ?_
  constructor
  · intro ht
    obtain ⟨p, hp, rfl⟩ := Option.map_eq_some_iff.mp ht
    obtain ⟨hs, rfl⟩ := pop_eq_some.mp hp
    exact ⟨hs, rfl⟩
  · rintro ⟨hs, rfl⟩
    exact Option.map_eq_some_iff.mpr ⟨_, pop_eq_some.mpr ⟨hs, rfl⟩, rfl⟩

/-- CALL pushes PC and jumps, or latches StackOverflow. -/
theorem execCall_next {nnn : Addr12} {s t : State} :
    execCall nnn s = .next t ↔
      (∃ h : s.sp.val < 16, t = { s with
        pc := zext12 nnn, stack := s.stack.set s.sp.val s.pc h, sp := ⟨s.sp.val + 1, by omega⟩ }) ∨
      (s.sp.val = 16 ∧ t = latch .stackOverflow s) := by
  rw [execCall, orRaise_next, Option.map_eq_none_iff, push_eq_none]
  refine or_congr_left ?_
  constructor
  · intro ht
    obtain ⟨p, hp, rfl⟩ := Option.map_eq_some_iff.mp ht
    obtain ⟨hs, rfl⟩ := push_eq_some.mp hp
    exact ⟨hs, rfl⟩
  · rintro ⟨hs, rfl⟩
    exact Option.map_eq_some_iff.mpr ⟨_, push_eq_some.mpr ⟨hs, rfl⟩, rfl⟩

/-- DRW composites and writes VF, or latches AddressOutOfRange. -/
theorem execDrw_next {x y n : Fin 16} {s t : State} :
    execDrw x y n s = .next t ↔
      (ea s 0 + n.val ≤ 4096 ∧ ∃ r, r = composite (getV s x) (getV s y) (s.mem.readBytes (ea s 0) n.val) s.disp ∧
        t = setV vf (flag r.2) { s with disp := r.1 }) ∨
      (4096 < ea s 0 + n.val ∧ t = latch .addressOutOfRange s) := by
  unfold execDrw
  split
  · rename_i h
    simp [show ¬ 4096 < ea s 0 + n.val by omega, h, eq_comm]
  · rename_i h
    simp [h, raise, eq_comm]; omega

/-- Fx65 loads the block, or latches AddressOutOfRange. -/
theorem execLoadRegs_next {x : Reg} {s t : State} :
    execLoadRegs x s = .next t ↔
      (ea s 0 + (x.val + 1) ≤ 4096 ∧ t = loadBlock s x) ∨
      (4096 < ea s 0 + (x.val + 1) ∧ t = latch .addressOutOfRange s) := by
  unfold execLoadRegs
  split
  · rename_i h
    simp [show ¬ 4096 < ea s 0 + (x.val + 1) by omega, h, eq_comm]
  · rename_i h
    simp [h, raise, eq_comm]; omega

/-- Fx0A takes the lowest key, or rewinds when none is down. -/
theorem execLdKey_next {x : Reg} {s t : State} :
    execLdKey x s = .next t ↔
      (∃ k, lowestKey s.keys = some k ∧ t = setV x (BitVec.ofNat 8 k.val) s) ∨
      (lowestKey s.keys = none ∧ t = rewind s) := by
  unfold execLdKey
  cases lowestKey s.keys <;> simp [@eq_comm _ t]

end Sys2Proof.Machine
end

