-- ==== Sys2Proof/Laws/Driver.lean ====
section
/-! SUPPORT. The driver's operations: each field after INITIALIZE, and the canonical form of memory under the
operations that write it. -/

namespace Sys2Proof.Machine

@[simp] theorem initWith_v (table : List Byte) (s : State) : (initWith table s).v = s.v := rfl
@[simp] theorem initWith_i (table : List Byte) (s : State) : (initWith table s).i = s.i := rfl
@[simp] theorem initWith_pc (table : List Byte) (s : State) : (initWith table s).pc = 512 := rfl
@[simp] theorem initWith_stack (table : List Byte) (s : State) : (initWith table s).stack = s.stack := rfl
@[simp] theorem initWith_sp (table : List Byte) (s : State) : (initWith table s).sp = s.sp := rfl
@[simp] theorem initWith_dt (table : List Byte) (s : State) : (initWith table s).dt = s.dt := rfl
@[simp] theorem initWith_st (table : List Byte) (s : State) : (initWith table s).st = s.st := rfl
@[simp] theorem initWith_mem (table : List Byte) (s : State) : (initWith table s).mem = s.mem.writeBytes 0 table := rfl
@[simp] theorem initWith_disp (table : List Byte) (s : State) : (initWith table s).disp = s.disp := rfl
@[simp] theorem initWith_keys (table : List Byte) (s : State) : (initWith table s).keys = s.keys := rfl
@[simp] theorem initWith_halt (table : List Byte) (s : State) : (initWith table s).halt = s.halt := rfl
@[simp] theorem initWith_fault (table : List Byte) (s : State) : (initWith table s).fault = s.fault := rfl
@[simp] theorem initWith_event (table : List Byte) (s : State) : (initWith table s).event = s.event := rfl
@[simp] theorem initWith_rands (table : List Byte) (s : State) : (initWith table s).rands = s.rands := rfl
@[simp] theorem initWith_draws (table : List Byte) (s : State) : (initWith table s).draws = s.draws := rfl

@[simp] theorem length_glyphs : glyphs.length = 80 := rfl

/-- INITIALIZE keeps the canonical form, for any table that fits into MEM. -/
theorem initWith_wf (table : List Byte) (s : State) (ht : table.length ≤ 4096) (hm : s.mem.wf) :
    (initWith table s).mem.wf := by
  rw [initWith_mem]
  exact Memory.writeBytes_wf table 0 s.mem (by omega) hm

/-- LOAD_PROGRAM keeps the canonical form. -/
theorem loadProgram_wf (bytes : List Byte) (s : State) (hm : s.mem.wf) : (loadProgram bytes s).2.mem.wf := by
  unfold loadProgram
  split
  · exact hm
  · exact Memory.writeBytes_wf bytes 512 s.mem (by omega) hm

/-- Memory after NEW has the canonical form. -/
theorem zeroMemory_wf : zeroMemory.wf :=
  Memory.writeBytes_wf (List.replicate 80 0) 0 [] (by decide) (by simp [Memory.wf])

/-- A word placed for the next fetch keeps the canonical form. -/
theorem placeWord_wf (w : Word) (s : State) (hm : s.mem.wf) : (placeWord w s).mem.wf := by
  refine Memory.writeBytes_wf (bytesOfWord w) _ s.mem ?_ hm
  show (fetchablePc s).toNat + 2 ≤ 4096
  unfold fetchablePc
  split
  · omega
  · decide

end Sys2Proof.Machine
end

