-- ==== Sys2Proof/Laws/Encoding.lean ====
section
/-! SUPPORT. The fields of a word as numbers, and the fields of each format's words (spec/30_encoding.md R61, R63). -/

namespace Sys2Proof

/-- A format A word as a number. -/
theorem formatA_toNat (n1 : BitVec 4) (n : Addr12) : (formatA n1 n).toNat = n1.toNat * 4096 + n.toNat := by
  rw [formatA, BitVec.toNat_append, ← Nat.shiftLeft_add_eq_or_of_lt n.isLt, Nat.shiftLeft_eq]

/-- A format I or X word as a number. -/
theorem formatI_toNat (n1 : BitVec 4) (x : Reg) (kk : Byte) :
    (formatI n1 x kk).toNat = n1.toNat * 4096 + x.val * 256 + kk.toNat := by
  rw [formatI, BitVec.toNat_append, ← Nat.shiftLeft_add_eq_or_of_lt (digit x ++ kk).isLt, Nat.shiftLeft_eq,
    BitVec.toNat_append, ← Nat.shiftLeft_add_eq_or_of_lt kk.isLt, Nat.shiftLeft_eq]
  simp [digit]; omega

/-- A format R or D word as a number. -/
theorem formatR_toNat (n1 : BitVec 4) (x y n : Fin 16) :
    (formatR n1 x y n).toNat = n1.toNat * 4096 + x.val * 256 + y.val * 16 + n.val := by
  rw [formatR, BitVec.toNat_append, ← Nat.shiftLeft_add_eq_or_of_lt (digit x ++ (digit y ++ digit n)).isLt,
    Nat.shiftLeft_eq, BitVec.toNat_append, ← Nat.shiftLeft_add_eq_or_of_lt (digit y ++ digit n).isLt,
    Nat.shiftLeft_eq, BitVec.toNat_append, ← Nat.shiftLeft_add_eq_or_of_lt (digit n).isLt, Nat.shiftLeft_eq]
  simp [digit]; omega

/-- A word of two bytes as a number. -/
theorem wordOfBytes_toNat (hi lo : Byte) : (wordOfBytes hi lo).toNat = hi.toNat * 256 + lo.toNat := by
  rw [wordOfBytes, BitVec.toNat_append, ← Nat.shiftLeft_add_eq_or_of_lt lo.isLt, Nat.shiftLeft_eq]

/-- A 4-bit field as a number. -/
theorem nibble_val (w : Word) (k : Nat) : (nibble w k).val = w.toNat / 2 ^ (4 * k) % 16 := by
  simp [nibble, Nat.shiftRight_eq_div_pow]

theorem fieldKK_toNat (w : Word) : (fieldKK w).toNat = w.toNat % 256 := by
  simp [fieldKK]

theorem fieldNNN_toNat (w : Word) : (fieldNNN w).toNat = w.toNat % 4096 := by
  simp [fieldNNN]

/-! ### The fields of a format's word -/

theorem n1_formatA (n1 : BitVec 4) (n : Addr12) : (nibble (formatA n1 n) 3).val = n1.toNat := by
  have := n1.isLt
  have := n.isLt
  rw [nibble_val, formatA_toNat]; omega

theorem nnn_formatA (n1 : BitVec 4) (n : Addr12) : fieldNNN (formatA n1 n) = n := by
  have := n.isLt
  apply BitVec.eq_of_toNat_eq
  rw [fieldNNN_toNat, formatA_toNat]; omega

theorem n1_formatI (n1 : BitVec 4) (x : Reg) (kk : Byte) : (nibble (formatI n1 x kk) 3).val = n1.toNat := by
  have := n1.isLt
  have := kk.isLt
  rw [nibble_val, formatI_toNat]; omega

theorem x_formatI (n1 : BitVec 4) (x : Reg) (kk : Byte) : fieldX (formatI n1 x kk) = x := by
  have := kk.isLt
  apply Fin.ext
  rw [fieldX, nibble_val, formatI_toNat]; omega

theorem kk_formatI (n1 : BitVec 4) (x : Reg) (kk : Byte) : fieldKK (formatI n1 x kk) = kk := by
  have := kk.isLt
  apply BitVec.eq_of_toNat_eq
  rw [fieldKK_toNat, formatI_toNat]; omega

theorem n1_formatR (n1 : BitVec 4) (x y n : Fin 16) : (nibble (formatR n1 x y n) 3).val = n1.toNat := by
  have := n1.isLt
  rw [nibble_val, formatR_toNat]; omega

theorem x_formatR (n1 : BitVec 4) (x y n : Fin 16) : fieldX (formatR n1 x y n) = x := by
  apply Fin.ext
  rw [fieldX, nibble_val, formatR_toNat]; omega

theorem y_formatR (n1 : BitVec 4) (x y n : Fin 16) : fieldY (formatR n1 x y n) = y := by
  apply Fin.ext
  rw [fieldY, nibble_val, formatR_toNat]; omega

theorem n_formatR (n1 : BitVec 4) (x y n : Fin 16) : fieldN (formatR n1 x y n) = n := by
  apply Fin.ext
  rw [fieldN, nibble_val, formatR_toNat]; omega

end Sys2Proof
end

