-- ==== Sys2Proof/Laws/PerInstr.lean ====
section
/-! SUPPORT. The family EncodingRow: the word of every instruction lies in its own row of R65's table, and that row is
in the table; one lemma per constructor. -/

namespace Sys2Proof.Laws

/-- Format A under the mask F000 keeps n1. -/
theorem formatA_and_F000 (n1 : BitVec 4) (nnn : Addr12) : formatA n1 nnn &&& 0xF000#16 = formatA n1 0 := by
  have h := BitVec.and_append (x₁ := n1) (x₂ := BitVec.allOnes 4) (y₁ := nnn) (y₂ := 0#12)
  rw [BitVec.and_allOnes, BitVec.and_zero] at h
  exact h

/-- A register and a low byte under a mask that clears the register. -/
theorem formatI_and (n1 : BitVec 4) (x : Reg) (kk m : Byte) :
    formatI n1 x kk &&& formatI 0xF#4 0 m = formatI n1 0 (kk &&& m) := by
  refine (BitVec.and_append (x₁ := n1) (x₂ := BitVec.allOnes 4) (y₁ := digit x ++ kk) (y₂ := 0#4 ++ m)).trans ?_
  rw [BitVec.and_allOnes, BitVec.and_append, BitVec.and_zero]
  rfl

/-- Format I under the mask F000 keeps n1. -/
theorem formatI_and_F000 (n1 : BitVec 4) (x : Reg) (kk : Byte) :
    formatI n1 x kk &&& 0xF000#16 = formatI n1 0 0 := by
  have h := formatI_and n1 x kk 0
  rwa [show kk &&& (0 : Byte) = 0 from BitVec.and_zero] at h

/-- Format X under the mask F0FF keeps n1 and the function code. -/
theorem formatI_and_F0FF (n1 : BitVec 4) (x : Reg) (kk : Byte) :
    formatI n1 x kk &&& 0xF0FF#16 = formatI n1 0 kk := by
  have h := formatI_and n1 x kk (BitVec.allOnes 8)
  rwa [BitVec.and_allOnes] at h

/-- Two registers and a low digit under a mask that clears the registers. -/
theorem formatR_and (n1 : BitVec 4) (x y n m : Fin 16) :
    formatR n1 x y n &&& formatR 0xF#4 0 0 m = n1 ++ (0#4 ++ (0#4 ++ (digit n &&& digit m))) := by
  refine (BitVec.and_append (x₁ := n1) (x₂ := BitVec.allOnes 4) (y₁ := digit x ++ (digit y ++ digit n))
    (y₂ := 0#4 ++ (0#4 ++ digit m))).trans ?_
  rw [BitVec.and_allOnes, BitVec.and_append, BitVec.and_append, BitVec.and_zero, BitVec.and_zero]

/-- Format R under the mask F00F keeps n1 and the function code. -/
theorem formatR_and_F00F (n1 : BitVec 4) (x y n : Fin 16) :
    formatR n1 x y n &&& 0xF00F#16 = formatR n1 0 0 n := by
  have h := formatR_and n1 x y n 0xF
  rwa [show digit n &&& digit 0xF = digit n from BitVec.and_allOnes] at h

/-- Format D under the mask F000 keeps n1. -/
theorem formatR_and_F000 (n1 : BitVec 4) (x y n : Fin 16) :
    formatR n1 x y n &&& 0xF000#16 = formatR n1 0 0 0 := by
  have h := formatR_and n1 x y n 0
  rwa [show digit n &&& digit 0 = digit 0 from BitVec.and_zero] at h

/-- The word of i is covered by i's row, a row of the table. -/
def EncodingRow.Statement (i : Instr) : Prop := (rowOf i).covers (encode i) = true ∧ rowOf i ∈ opcodeTable

namespace EncodingRow

theorem cls : Statement .cls := by unfold Statement; decide

theorem ret : Statement .ret := by unfold Statement; decide

theorem jp (nnn : Addr12) : Statement (.jp nnn) := by
  refine ⟨?_, by simp [rowOf, opcodeTable]⟩
  simp only [Row.covers, rowOf, encode, formatA_and_F000]
  rfl

theorem call (nnn : Addr12) : Statement (.call nnn) := by
  refine ⟨?_, by simp [rowOf, opcodeTable]⟩
  simp only [Row.covers, rowOf, encode, formatA_and_F000]
  rfl

theorem seImm (x : Reg) (kk : Byte) : Statement (.seImm x kk) := by
  refine ⟨?_, by simp [rowOf, opcodeTable]⟩
  simp only [Row.covers, rowOf, encode, formatI_and_F000]
  rfl

theorem sneImm (x : Reg) (kk : Byte) : Statement (.sneImm x kk) := by
  refine ⟨?_, by simp [rowOf, opcodeTable]⟩
  simp only [Row.covers, rowOf, encode, formatI_and_F000]
  rfl

theorem seReg (x y : Reg) : Statement (.seReg x y) := by
  refine ⟨?_, by simp [rowOf, opcodeTable]⟩
  simp only [Row.covers, rowOf, encode, formatR_and_F00F]
  rfl

theorem ldImm (x : Reg) (kk : Byte) : Statement (.ldImm x kk) := by
  refine ⟨?_, by simp [rowOf, opcodeTable]⟩
  simp only [Row.covers, rowOf, encode, formatI_and_F000]
  rfl

theorem addImm (x : Reg) (kk : Byte) : Statement (.addImm x kk) := by
  refine ⟨?_, by simp [rowOf, opcodeTable]⟩
  simp only [Row.covers, rowOf, encode, formatI_and_F000]
  rfl

theorem ldReg (x y : Reg) : Statement (.ldReg x y) := by
  refine ⟨?_, by simp [rowOf, opcodeTable]⟩
  simp only [Row.covers, rowOf, encode, formatR_and_F00F]
  rfl

theorem orReg (x y : Reg) : Statement (.orReg x y) := by
  refine ⟨?_, by simp [rowOf, opcodeTable]⟩
  simp only [Row.covers, rowOf, encode, formatR_and_F00F]
  rfl

theorem andReg (x y : Reg) : Statement (.andReg x y) := by
  refine ⟨?_, by simp [rowOf, opcodeTable]⟩
  simp only [Row.covers, rowOf, encode, formatR_and_F00F]
  rfl

theorem xorReg (x y : Reg) : Statement (.xorReg x y) := by
  refine ⟨?_, by simp [rowOf, opcodeTable]⟩
  simp only [Row.covers, rowOf, encode, formatR_and_F00F]
  rfl

theorem addReg (x y : Reg) : Statement (.addReg x y) := by
  refine ⟨?_, by simp [rowOf, opcodeTable]⟩
  simp only [Row.covers, rowOf, encode, formatR_and_F00F]
  rfl

theorem subReg (x y : Reg) : Statement (.subReg x y) := by
  refine ⟨?_, by simp [rowOf, opcodeTable]⟩
  simp only [Row.covers, rowOf, encode, formatR_and_F00F]
  rfl

theorem shr (x y : Reg) : Statement (.shr x y) := by
  refine ⟨?_, by simp [rowOf, opcodeTable]⟩
  simp only [Row.covers, rowOf, encode, formatR_and_F00F]
  rfl

theorem subnReg (x y : Reg) : Statement (.subnReg x y) := by
  refine ⟨?_, by simp [rowOf, opcodeTable]⟩
  simp only [Row.covers, rowOf, encode, formatR_and_F00F]
  rfl

theorem shl (x y : Reg) : Statement (.shl x y) := by
  refine ⟨?_, by simp [rowOf, opcodeTable]⟩
  simp only [Row.covers, rowOf, encode, formatR_and_F00F]
  rfl

theorem sneReg (x y : Reg) : Statement (.sneReg x y) := by
  refine ⟨?_, by simp [rowOf, opcodeTable]⟩
  simp only [Row.covers, rowOf, encode, formatR_and_F00F]
  rfl

theorem ldI (nnn : Addr12) : Statement (.ldI nnn) := by
  refine ⟨?_, by simp [rowOf, opcodeTable]⟩
  simp only [Row.covers, rowOf, encode, formatA_and_F000]
  rfl

theorem jpV0 (nnn : Addr12) : Statement (.jpV0 nnn) := by
  refine ⟨?_, by simp [rowOf, opcodeTable]⟩
  simp only [Row.covers, rowOf, encode, formatA_and_F000]
  rfl

theorem rnd (x : Reg) (kk : Byte) : Statement (.rnd x kk) := by
  refine ⟨?_, by simp [rowOf, opcodeTable]⟩
  simp only [Row.covers, rowOf, encode, formatI_and_F000]
  rfl

theorem drw (x y n : Fin 16) : Statement (.drw x y n) := by
  refine ⟨?_, by simp [rowOf, opcodeTable]⟩
  simp only [Row.covers, rowOf, encode, formatR_and_F000]
  rfl

theorem skp (x : Reg) : Statement (.skp x) := by
  refine ⟨?_, by simp [rowOf, opcodeTable]⟩
  simp only [Row.covers, rowOf, encode, formatI_and_F0FF]
  rfl

theorem sknp (x : Reg) : Statement (.sknp x) := by
  refine ⟨?_, by simp [rowOf, opcodeTable]⟩
  simp only [Row.covers, rowOf, encode, formatI_and_F0FF]
  rfl

theorem ldFromDt (x : Reg) : Statement (.ldFromDt x) := by
  refine ⟨?_, by simp [rowOf, opcodeTable]⟩
  simp only [Row.covers, rowOf, encode, formatI_and_F0FF]
  rfl

theorem ldKey (x : Reg) : Statement (.ldKey x) := by
  refine ⟨?_, by simp [rowOf, opcodeTable]⟩
  simp only [Row.covers, rowOf, encode, formatI_and_F0FF]
  rfl

theorem ldToDt (x : Reg) : Statement (.ldToDt x) := by
  refine ⟨?_, by simp [rowOf, opcodeTable]⟩
  simp only [Row.covers, rowOf, encode, formatI_and_F0FF]
  rfl

theorem ldToSt (x : Reg) : Statement (.ldToSt x) := by
  refine ⟨?_, by simp [rowOf, opcodeTable]⟩
  simp only [Row.covers, rowOf, encode, formatI_and_F0FF]
  rfl

theorem addI (x : Reg) : Statement (.addI x) := by
  refine ⟨?_, by simp [rowOf, opcodeTable]⟩
  simp only [Row.covers, rowOf, encode, formatI_and_F0FF]
  rfl

theorem ldGlyph (x : Reg) : Statement (.ldGlyph x) := by
  refine ⟨?_, by simp [rowOf, opcodeTable]⟩
  simp only [Row.covers, rowOf, encode, formatI_and_F0FF]
  rfl

theorem ldBcd (x : Reg) : Statement (.ldBcd x) := by
  refine ⟨?_, by simp [rowOf, opcodeTable]⟩
  simp only [Row.covers, rowOf, encode, formatI_and_F0FF]
  rfl

theorem storeRegs (x : Reg) : Statement (.storeRegs x) := by
  refine ⟨?_, by simp [rowOf, opcodeTable]⟩
  simp only [Row.covers, rowOf, encode, formatI_and_F0FF]
  rfl

theorem loadRegs (x : Reg) : Statement (.loadRegs x) := by
  refine ⟨?_, by simp [rowOf, opcodeTable]⟩
  simp only [Row.covers, rowOf, encode, formatI_and_F0FF]
  rfl

end EncodingRow

end Sys2Proof.Laws
end

