-- ==== Sys2Proof/Tests/Slice0.lean ====
section
/-! SUPPORT. The model's own tests. Words and expected values are those of spec/95_test_vectors.md (the vector's name
stands beside each test) and of spec/30_encoding.md R65, R66 and R70; then, for every statement with hypotheses, a witness
that meets them. -/

namespace Sys2Proof.Tests

open Machine Claims

/-! ### Decoding: words written out from R65's patterns, every constructor once -/

theorem test_decode_control :
    decode 0x00E0#16 = .instr .cls ∧ decode 0x00EE#16 = .instr .ret ∧
    decode 0x1204#16 = .instr (.jp 0x204#12) ∧ decode 0x2ABC#16 = .instr (.call 0xABC#12) ∧
    decode 0x3A5C#16 = .instr (.seImm 0xA 0x5C#8) ∧ decode 0x4311#16 = .instr (.sneImm 3 0x11#8) ∧
    decode 0x5AB0#16 = .instr (.seReg 0xA 0xB) ∧ decode 0x9AB0#16 = .instr (.sneReg 0xA 0xB) ∧
    decode 0xB300#16 = .instr (.jpV0 0x300#12) := by decide

theorem test_decode_alu :
    decode 0x6A02#16 = .instr (.ldImm 0xA 0x02#8) ∧ decode 0x7002#16 = .instr (.addImm 0 0x02#8) ∧
    decode 0x8AB0#16 = .instr (.ldReg 0xA 0xB) ∧ decode 0x8AB1#16 = .instr (.orReg 0xA 0xB) ∧
    decode 0x8AB2#16 = .instr (.andReg 0xA 0xB) ∧ decode 0x8AB3#16 = .instr (.xorReg 0xA 0xB) ∧
    decode 0x8AB4#16 = .instr (.addReg 0xA 0xB) ∧ decode 0x8AB5#16 = .instr (.subReg 0xA 0xB) ∧
    decode 0x8AB6#16 = .instr (.shr 0xA 0xB) ∧ decode 0x8AB7#16 = .instr (.subnReg 0xA 0xB) ∧
    decode 0x8ABE#16 = .instr (.shl 0xA 0xB) ∧ decode 0xC30F#16 = .instr (.rnd 3 0x0F#8) := by decide

theorem test_decode_index_display_keys :
    decode 0xA300#16 = .instr (.ldI 0x300#12) ∧ decode 0xD123#16 = .instr (.drw 1 2 3) ∧
    decode 0xE19E#16 = .instr (.skp 1) ∧ decode 0xE1A1#16 = .instr (.sknp 1) ∧
    decode 0xF107#16 = .instr (.ldFromDt 1) ∧ decode 0xF10A#16 = .instr (.ldKey 1) ∧
    decode 0xF115#16 = .instr (.ldToDt 1) ∧ decode 0xF118#16 = .instr (.ldToSt 1) ∧
    decode 0xF11E#16 = .instr (.addI 1) ∧ decode 0xF129#16 = .instr (.ldGlyph 1) ∧
    decode 0xF133#16 = .instr (.ldBcd 1) ∧ decode 0xF155#16 = .instr (.storeRegs 1) ∧
    decode 0xF165#16 = .instr (.loadRegs 1) := by decide

theorem test_decode_unknown :
    ([0x0000#16, 0x00E1#16, 0x0123#16, 0x5AB1#16, 0x8AB8#16, 0x8ABF#16, 0x9AB5#16, 0xE100#16, 0xF175#16, 0xF185#16,
      0xF130#16, 0xFFFF#16, 0xE29F#16].all fun w => decide (decode w = .unknown w)) = true := by decide

theorem test_encode :
    encode (.jp 0x0E0#12) = 0x10E0#16 ∧ encode (.ldImm 0xA 0x02#8) = 0x6A02#16 ∧
    encode (.addReg 0xA 0xB) = 0x8AB4#16 ∧ encode (.drw 1 2 3) = 0xD123#16 ∧ encode (.loadRegs 2) = 0xF265#16 := by
  decide

theorem test_table_rows_disjoint :
    opcodeTable.Pairwise fun r r' => r.bits &&& r'.mask ≠ r'.bits &&& r.mask := by decide

theorem test_decodeTableWord :
    decodeTableWord 16 0x8AB4 = some (.addReg 0xA 0xB) ∧ decodeTableWord 16 0x0000 = none := by decide

/-! ### Source lines: each check refuses an ill-formed one (R70) -/

theorem test_asm_wellFormed :
    AsmLine.wellFormed (.instr .drw [.v 1, .v 15, .num 15]) = true ∧
    assemble (.instr .ld [.v 2, .atI]) = .ok [0xF2#8, 0x65#8] ∧
    assemble (.instr .shr [.v 10]) = .ok [0x8A#8, 0x06#8] ∧
    assemble (.instr .jp [.v 0, .num 0x300]) = .ok [0xB3#8, 0x00#8] ∧
    assemble (.dw 0x1208) = .ok [0x12#8, 0x08#8] := by decide

theorem test_asm_noSuchRegister :
    assembleInstr .ld [.v 16, .num 0] = .error .noSuchRegister ∧
    AsmLine.wellFormed (.instr .skp [.v 16]) = false := by decide

theorem test_asm_doesNotFit :
    assembleInstr .ld [.v 0, .num 256] = .error .doesNotFit ∧
    assembleInstr .jp [.num 4096] = .error .doesNotFit ∧
    assembleInstr .drw [.v 0, .v 0, .num 16] = .error .doesNotFit ∧
    AsmLine.wellFormed (.dw 65536) = false ∧ AsmLine.wellFormed (.db 256) = false := by decide

theorem test_asm_noSuchForm :
    assembleInstr .cls [.v 0] = .error .noSuchForm ∧
    assembleInstr .jp [.v 1, .num 0] = .error .noSuchForm ∧
    assembleInstr .call [.v 0] = .error .noSuchForm ∧
    AsmLine.wellFormed (.instr .ld [.k, .v 0]) = false := by decide

/-- The lines of P4, P3 and P7 as text: `DRW V0, V0, 5`, `LD I, 0x300`, `LD V2, [I]`, `DW 0x0000`. -/
theorem test_asm_text :
    assembleText ['D', 'R', 'W', ' ', 'V', '0', ',', ' ', 'V', '0', ',', ' ', '5'] = .ok [0xD0#8, 0x05#8] ∧
    assembleText ['L', 'D', ' ', 'I', ',', ' ', '0', 'x', '3', '0', '0'] = .ok [0xA3#8, 0x00#8] ∧
    assembleText ['L', 'D', ' ', 'V', '2', ',', ' ', '[', 'I', ']'] = .ok [0xF2#8, 0x65#8] ∧
    assembleText ['D', 'W', ' ', '0', 'x', '0', '0', '0', '0'] = .ok [0x00#8, 0x00#8] := by decide

/-- `LD V0, 256`, which does not fit; `LD VG, 1` and `SYS 1`, which are no lines. -/
theorem test_asm_text_refused :
    assembleText ['L', 'D', ' ', 'V', '0', ',', ' ', '2', '5', '6'] = .error .doesNotFit ∧
    assembleText ['L', 'D', ' ', 'V', 'G', ',', ' ', '1'] = .error .unreadable ∧
    assembleText ['S', 'Y', 'S', ' ', '1'] = .error .unreadable := by decide

/-! ### Helpers -/

/-- The answer is a next state, and a test of it holds. -/
def nextIs (r : Result) (p : State → Bool) : Bool :=
  match r with
  | .next t => p t
  | .fault _ => false
  | .refused _ => false

/-- A STEP of s on a word stored at its PC. -/
def onWord (w : Nat) (s : State) : Result := step (s.withFetchWord 16 w)

/-- The state after reset with some registers set. -/
def regs (l : List (Reg × Byte)) : State := l.foldl (fun s p => setV p.1 p.2 s) State.reset

/-- s with PC, I or SP set. -/
def atPc (a : Word) (s : State) : State := { s with pc := a }
def withI (a : Word) (s : State) : State := { s with i := a }
def withSp (n : Fin 17) (s : State) : State := { s with sp := n }

/-- s with a stack slot set. -/
def withSlot (k : Fin 16) (a : Word) (s : State) : State := { s with stack := s.stack.set k.val a }

/-- s with some bytes stored at an address. -/
def withMem (a : Nat) (bs : List Byte) (s : State) : State := { s with mem := s.mem.writeBytes a bs }

/-- s with the keys of a list down and the others up. -/
def withKeys (l : List Nat) (s : State) : State := { s with keys := Vector.ofFn fun k : Fin 16 => l.contains k.val }

/-- s with a cell of the display set. -/
def withCell (cx cy : Nat) (s : State) : State := { s with disp := (plot cx cy (s.disp, false)).1 }

/-- The n bytes at a. -/
def bytesAt (t : State) (a n : Nat) : List Byte := t.mem.readBytes a n

/-! ### Control transfer -/

/-- C1. -/
theorem test_jp : nextIs (onWord 0x1204 (atPc 0x20A State.reset)) (fun t => t.pc == 0x204) = true := by decide

/-- C2, C4. -/
theorem test_ret :
    nextIs (onWord 0x00EE (atPc 0x20C (withSp 1 (withSlot 0 0x206 State.reset))))
      (fun t => t.pc == 0x206 && t.sp == 0 && t.stack[0] == 0x206) = true ∧
    nextIs (onWord 0x00EE (withSp 16 (withSlot 15 0x456 State.reset)))
      (fun t => t.pc == 0x456 && t.sp == 15) = true := by decide

/-- C3. -/
theorem test_ret_underflow :
    nextIs (onWord 0x00EE State.reset)
      (fun t => t.pc == 0x202 && t.sp == 0 && t.halt && faultCode t.fault == 3) = true := by decide

/-- C9, C11. -/
theorem test_call :
    nextIs (onWord 0x2300 (withSp 15 State.reset))
      (fun t => t.stack[15] == 0x202 && t.sp == 16 && t.pc == 0x300) = true ∧
    nextIs (onWord 0x2ABC (atPc 0xFFE State.reset))
      (fun t => t.stack[0] == 0x1000 && t.sp == 1 && t.pc == 0xABC) = true := by decide

/-- C10. -/
theorem test_call_overflow :
    nextIs (onWord 0x2300 (withSp 16 State.reset))
      (fun t => t.pc == 0x202 && t.sp == 16 && t.halt && faultCode t.fault == 2) = true := by decide

/-- C12, C15. -/
theorem test_seImm :
    nextIs (onWord 0x3000 (atPc 0x208 State.reset)) (fun t => t.pc == 0x20C) = true ∧
    nextIs (onWord 0x3A00 (atPc 0xFFE State.reset)) (fun t => t.pc == 0x1002 && !t.halt) = true := by decide

/-- C16, C17. -/
theorem test_sneImm :
    nextIs (onWord 0x4311 (atPc 0x300 (regs [(3, 0x10)]))) (fun t => t.pc == 0x304) = true ∧
    nextIs (onWord 0x4310 (atPc 0x300 (regs [(3, 0x10)]))) (fun t => t.pc == 0x302) = true := by decide

/-- C18, C19. -/
theorem test_seReg :
    nextIs (onWord 0x5120 (regs [(1, 7), (2, 7)])) (fun t => t.pc == 0x204) = true ∧
    nextIs (onWord 0x5120 (regs [(1, 7), (2, 8)])) (fun t => t.pc == 0x202) = true := by decide

/-- C22, C23. -/
theorem test_sneReg :
    nextIs (onWord 0x9120 (regs [(1, 7), (2, 8)])) (fun t => t.pc == 0x204) = true ∧
    nextIs (onWord 0x9120 (regs [(1, 7), (2, 7)])) (fun t => t.pc == 0x202) = true := by decide

/-- C27: 4350, with no mask. -/
theorem test_jpV0 : nextIs (onWord 0xBFFF (regs [(0, 0xFF)])) (fun t => t.pc == 0x10FE && !t.halt) = true := by decide

/-- C21: the event, PC advanced, nothing latched. -/
theorem test_unknown :
    nextIs (onWord 0x5121 (regs [(1, 7), (2, 7)]))
      (fun t => t.event == some 0x5121 && t.pc == 0x202 && !t.halt && t.fault == none) = true := by decide

/-- L9, L10: the last fetch that succeeds, and the first that does not. -/
theorem test_fetch_bounds :
    nextIs (step (withMem 4094 [0x60, 0x05] (atPc 4094 State.reset)))
      (fun t => getV t 0 == 5 && t.pc == 4096 && !t.halt) = true ∧
    nextIs (step (atPc 4095 State.reset)) (fun t => t.pc == 4095 && t.halt && faultCode t.fault == 1) = true := by
  decide

/-! ### Arithmetic -/

/-- A1. -/
theorem test_ldImm : nextIs (onWord 0x6A02 State.reset) (fun t => getV t 0xA == 2 && t.pc == 0x202) = true := by decide

/-- A3, A6. -/
theorem test_addImm :
    nextIs (onWord 0x7002 (regs [(0, 0xFF), (15, 7)])) (fun t => getV t 0 == 1 && getV t vf == 7) = true ∧
    nextIs (onWord 0x7F01 (regs [(15, 0xFF)])) (fun t => getV t vf == 0) = true := by decide

/-- A7. -/
theorem test_ldReg : nextIs (onWord 0x8010 (regs [(0, 1), (1, 9)])) (fun t => getV t 0 == 9 && getV t 1 == 9) = true := by
  decide

/-- A9, A10, A11: VF keeps its value. -/
theorem test_logic :
    nextIs (onWord 0x8011 (regs [(0, 0xF0), (1, 0x0F), (15, 9)])) (fun t => getV t 0 == 0xFF && getV t vf == 9) = true ∧
    nextIs (onWord 0x8012 (regs [(0, 0xF3), (1, 0x3F), (15, 9)])) (fun t => getV t 0 == 0x33 && getV t vf == 9) = true ∧
    nextIs (onWord 0x8013 (regs [(0, 0xFF), (1, 0x0F), (15, 9)])) (fun t => getV t 0 == 0xF0 && getV t vf == 9) = true := by
  decide

/-- A17, A18. -/
theorem test_addReg :
    nextIs (onWord 0x80F4 (regs [(0, 0x10), (15, 0xF5)])) (fun t => getV t 0 == 5 && getV t vf == 1) = true ∧
    nextIs (onWord 0x8F04 (regs [(0, 100), (15, 200)])) (fun t => getV t vf == 1) = true := by decide

/-- A20, A22. -/
theorem test_subReg :
    nextIs (onWord 0x8015 (regs [(0, 5), (1, 7)])) (fun t => getV t 0 == 0xFE && getV t vf == 0) = true ∧
    nextIs (onWord 0x8015 (regs [(0, 7), (1, 7)])) (fun t => getV t 0 == 0 && getV t vf == 1) = true := by decide

/-- A26, A29. -/
theorem test_subnReg :
    nextIs (onWord 0x8017 (regs [(0, 5), (1, 7)])) (fun t => getV t 0 == 2 && getV t vf == 1) = true ∧
    nextIs (onWord 0x8F07 (regs [(0, 5), (15, 3)])) (fun t => getV t vf == 1) = true := by decide

/-- A31, A34. -/
theorem test_shr :
    nextIs (onWord 0x8216 (regs [(2, 4), (1, 0xFF)]))
      (fun t => getV t 2 == 2 && getV t vf == 0 && getV t 1 == 0xFF) = true ∧
    nextIs (onWord 0x8F06 (regs [(15, 5)])) (fun t => getV t vf == 2) = true := by decide

/-- A36, A41. -/
theorem test_shl :
    nextIs (onWord 0x820E (regs [(2, 0x81)])) (fun t => getV t 2 == 2 && getV t vf == 1) = true ∧
    nextIs (onWord 0x8F0E (regs [(15, 0x40)])) (fun t => getV t vf == 0x80) = true := by decide

/-- A42: the byte the driver hands to the STEP. -/
theorem test_rnd : getV (perform (.step 0xA7) (State.reset.withFetchWord 16 0xC30F)).2 3 = 0x07 := by decide

/-! ### Index register and memory -/

/-- M2. -/
theorem test_ldI : nextIs (onWord 0xAFFF (withI 5 State.reset)) (fun t => t.i == 0xFFF) = true := by decide

/-- M4, M5. -/
theorem test_addI :
    nextIs (onWord 0xF11E (withI 0xFFFF (regs [(1, 1), (15, 7)]))) (fun t => t.i == 0 && getV t vf == 7) = true ∧
    nextIs (onWord 0xF11E (withI 0x0FFF (regs [(1, 1)]))) (fun t => t.i == 0x1000) = true := by decide

/-- M10, M11. -/
theorem test_ldGlyph :
    nextIs (onWord 0xF429 (regs [(4, 0x1A)])) (fun t => t.i == 130) = true ∧
    nextIs (onWord 0xF429 (regs [(4, 0xFF)])) (fun t => t.i == 1275) = true := by decide

/-- M12, M14. -/
theorem test_ldBcd :
    nextIs (onWord 0xF033 (withI 0x300 (regs [(0, 254)]))) (fun t => bytesAt t 0x2FF 5 == [0, 2, 5, 4, 0]) = true ∧
    nextIs (onWord 0xF033 (withI 4093 (regs [(0, 255)]))) (fun t => bytesAt t 4093 3 == [2, 5, 5]) = true := by decide

/-- M15, M19: no wrap to low memory. -/
theorem test_ldBcd_fault :
    nextIs (onWord 0xF033 (withI 4094 (regs [(0, 255)])))
      (fun t => bytesAt t 4094 2 == [0, 0] && t.pc == 0x202 && t.halt && faultCode t.fault == 1) = true ∧
    nextIs (onWord 0xF033 (withI 0xFFFF (regs [(0, 7)]))) (fun t => t.halt && bytesAt t 0 1 == [0xF0]) = true := by decide

/-- M20, M22. -/
theorem test_storeRegs :
    nextIs (onWord 0xF155 (withI 0x208 (regs [(0, 0x12), (1, 0x08), (2, 0x33)])))
      (fun t => bytesAt t 0x207 4 == [0, 0x12, 0x08, 0] && t.i == 0x208) = true ∧
    nextIs (onWord 0xF155 (withI 4095 (regs [(0, 0xAA), (1, 0xBB)])))
      (fun t => bytesAt t 4095 1 == [0] && t.halt) = true := by decide

/-- M25, M27. -/
theorem test_loadRegs :
    nextIs (onWord 0xF265 (withI 0x300 (withMem 0x300 [2, 5, 4, 9] (regs [(3, 0x77)]))))
      (fun t => [getV t 0, getV t 1, getV t 2, getV t 3] == [2, 5, 4, 0x77] && t.i == 0x300) = true ∧
    nextIs (onWord 0xF165 (withI 4095 (regs [(0, 1), (1, 2)])))
      (fun t => getV t 0 == 1 && getV t 1 == 2 && faultCode t.fault == 1) = true := by decide

/-! ### Display -/

/-- D1. -/
theorem test_cls :
    nextIs (onWord 0x00E0 (withCell 63 31 (withCell 0 0 State.reset)))
      (fun t => !cell t.disp 0 0 && !cell t.disp 63 31) = true := by decide +kernel

/-- D9, clipped at the right edge; D12, clipped at the bottom. -/
theorem test_drw_clip :
    nextIs (onWord 0xD011 (withI 0x300 (withMem 0x300 [0xFF] (regs [(0, 60)]))))
      (fun t => cell t.disp 60 0 && cell t.disp 63 0 && !cell t.disp 0 0 && !cell t.disp 0 1 && getV t vf == 0) = true ∧
    nextIs (onWord 0xD013 (withI 0x300 (withMem 0x300 [0x80, 0x80, 0x80] (regs [(1, 30)]))))
      (fun t => cell t.disp 0 30 && cell t.disp 0 31 && !cell t.disp 0 0 && getV t vf == 0) = true := by decide +kernel

/-- D13, VF as a coordinate; D15, a collision. -/
theorem test_drw_collision :
    nextIs (onWord 0xDF01 (withI 0x300 (withMem 0x300 [0x80] (regs [(0, 1), (15, 2)]))))
      (fun t => cell t.disp 2 1 && getV t vf == 0) = true ∧
    nextIs (onWord 0xD011 (withI 0x300 (withMem 0x300 [0xC0] (withCell 1 0 State.reset))))
      (fun t => cell t.disp 0 0 && !cell t.disp 1 0 && getV t vf == 1) = true := by decide +kernel

/-- D5, D6: the empty span at 4096 and past it. -/
theorem test_drw_empty :
    nextIs (onWord 0xD010 (withI 4096 (regs [(15, 1)]))) (fun t => getV t vf == 0 && !t.halt) = true ∧
    nextIs (onWord 0xD010 (withI 4097 (regs [(15, 1)]))) (fun t => getV t vf == 1 && faultCode t.fault == 1) = true := by
  decide +kernel

/-! ### Keys and timers -/

/-- K1, K4. -/
theorem test_skp :
    nextIs (onWord 0xE29E (atPc 0x210 (withKeys [7] (regs [(2, 7)])))) (fun t => t.pc == 0x214) = true ∧
    nextIs (onWord 0xE29E (withKeys [15] (regs [(2, 0xFF)]))) (fun t => t.pc == 0x202 && faultCode t.fault == 5) = true := by
  decide

/-- K6, K7. -/
theorem test_sknp :
    nextIs (onWord 0xE2A1 (atPc 0x210 (regs [(2, 7)]))) (fun t => t.pc == 0x214) = true ∧
    nextIs (onWord 0xE2A1 (atPc 0x210 (withKeys [7] (regs [(2, 7)])))) (fun t => t.pc == 0x212) = true := by decide

/-- K10, the whole state; K11. -/
theorem test_ldKey :
    nextIs (onWord 0xF10A (regs [(1, 9)])) (fun t => t == (regs [(1, 9)]).withFetchWord 16 0xF10A) = true ∧
    nextIs (onWord 0xF10A (withKeys [3, 7] State.reset)) (fun t => getV t 1 == 3 && t.pc == 0x202) = true := by
  decide +kernel

/-- K15. -/
theorem test_ldFromDt :
    nextIs (onWord 0xF207 { State.reset with dt := 2 }) (fun t => getV t 2 == 2 && t.dt == 2) = true := by decide

/-- K17, K20. -/
theorem test_timer_writes :
    nextIs (onWord 0xF115 (regs [(1, 3)])) (fun t => t.dt == 3 && t.st == 0) = true ∧
    nextIs (onWord 0xF018 (regs [(0, 2)])) (fun t => t.st == 2 && t.dt == 0) = true := by decide

/-- T2, T4, T5. -/
theorem test_tick :
    (perform .tickTimers { State.reset with dt := 3 }).2.dt = 2 ∧
    (perform .tickTimers { State.reset with dt := 1, st := 1 }).1 = .tone true ∧
    (perform .tickTimers { State.reset with dt := 255, st := 255 }).2.st = 254 := by decide

/-- T7: replaced, not merged. -/
theorem test_setKeys :
    (perform (.setKeys (withKeys [4] State.reset).keys) (withKeys [1, 2] State.reset)).2.keys =
      (withKeys [4] State.reset).keys := by decide

/-! ### Start-up and the halted state -/

/-- L4, L5: NEW clears the glyphs, INITIALIZE writes them and PC. -/
theorem test_new_initialize :
    newMachine.pc = 0 ∧ newMachine.mem.read 0 = 0 ∧ perform .initCore newMachine = (.ok, State.reset) ∧
    State.reset.mem.read 0 = 0xF0 := by decide +kernel

/-- L8: a shorter load overlays. -/
theorem test_loadProgram :
    bytesAt (performAll [.loadProgram [0xAA, 0xBB, 0xCC, 0xDD], .loadProgram [0x11]] State.reset) 512 4 =
      [0x11, 0xBB, 0xCC, 0xDD] := by decide

/-- L2. -/
theorem test_loadProgram_capacity :
    (perform (.loadProgram (List.replicate 3585 0xAB)) State.reset).1 = .fault .capacityError := by decide +kernel

/-- L11, R175: refused, DISPLAY and NEW apart. -/
theorem test_halted :
    (perform (.step 0) (latch .stackUnderflow State.reset)).1 = .refused ∧
    (perform .tickTimers (latch .stackUnderflow State.reset)).1 = .refused ∧
    (perform .new (latch .stackUnderflow State.reset)).2.halt = false := by decide

/-- The answers of STEP: Ok, the event, a fault (C1, C21, C3). -/
theorem test_step_answers :
    (perform (.step 0) (State.reset.withFetchWord 16 0x1204)).1 = .ok ∧
    (perform (.step 0) (State.reset.withFetchWord 16 0x5121)).1 = .unknownOpcode 0x5121 ∧
    (perform (.step 0) (State.reset.withFetchWord 16 0x00EE)).1 = .fault .stackUnderflow := by decide

/-! ### Witnesses: for every statement with hypotheses, states and operands that meet them, at the ends of each clause's
range -/

theorem witness_EncodeOfDecode : decode 0x8AB4#16 = .instr (.addReg 0xA 0xB) := by decide

theorem witness_DecoderAgreesWithMaskTable :
    decode 0xF165#16 = .instr (.loadRegs 1) ∧ ⟨0xF0FF#16, 0xF065#16⟩ ∈ opcodeTable ∧
    Row.covers ⟨0xF0FF#16, 0xF065#16⟩ 0xF165#16 = true := by decide

theorem witness_AssembleOfDisassemble : ∀ x y : Reg, Instr.cls ≠ .shr x y ∧ Instr.cls ≠ .shl x y := by simp

/-- An instruction at the last address that can be fetched, an unknown word, a fetch that fails, a halted core. -/
theorem witness_StepRunsDecodedInstruction :
    FetchesWord (withMem 4094 [0x60, 0x05] (atPc 4094 State.reset)) 0x6005#16 ∧
    decode 0x6005#16 = .instr (.ldImm 0 5#8) ∧
    FetchesWord State.reset 0x0000#16 ∧ decode 0x0000#16 = .unknown 0x0000#16 ∧
    ((atPc 4095 State.reset).halt = false ∧ 4095 < (atPc 4095 State.reset).pc.toNat + 1) ∧
    (latch .stackUnderflow State.reset).halt = true := by
  unfold FetchesWord
  decide

theorem witness_FetchIsBigEndian : fetchWord (State.reset.withFetchWord 16 0x1204) = some 0x1204#16 := by decide

/-- An execute fault and a fetch fault: each a next state that is halted. -/
theorem witness_FaultsArePrecise :
    (State.reset.withFetchWord 16 0x00EE).halt = false ∧
    nextIs (onWord 0x00EE State.reset) (fun t => t.halt) = true ∧
    nextIs (step (atPc 4095 State.reset)) (fun t => t.halt) = true := by decide

/-- A safe STEP and an unsafe one. -/
theorem witness_StepFaultsExactlyWhenUnsafe :
    State.reset.halt = false ∧ nextIs (onWord 0x1204 State.reset) (fun t => !t.halt) = true ∧
    nextIs (onWord 0x00EE State.reset) (fun t => t.halt) = true := by decide

theorem witness_TrapsLatchTheirKind :
    State.reset.sp.val = 0 ∧ (withSp 16 State.reset).sp.val = 16 ∧
    4096 < (withI 4097 State.reset).i.toNat + (0 : Fin 16).val ∧
    4096 < (withI 4082 State.reset).i.toNat + (15 : Fin 16).val ∧
    4096 < (withI 4094 State.reset).i.toNat + 3 ∧
    4096 < (withI 4096 State.reset).i.toNat + ((0 : Reg).val + 1) ∧
    4096 < (withI 4081 State.reset).i.toNat + ((15 : Reg).val + 1) ∧
    15 < (getV (regs [(2, 16)]) 2).toNat := by decide

/-- A state with the invariant, not the one after reset, that steps. -/
theorem witness_StepKeepsInvariant :
    CoreInv (atPc 0x300 State.reset) ∧ nextIs (step (atPc 0x300 State.reset)) (fun _ => true) = true :=
  ⟨⟨Memory.reset_wf, by decide, by decide, rfl⟩, by decide⟩

theorem witness_EveryOperationKeepsInvariant : Reachable (performAll [.tickTimers] State.reset) := ⟨_, rfl⟩

/-- Each store is changed by one of the instructions listed for it. -/
theorem witness_StateIsWrittenOnlyBy :
    nextIs (exec (.ldToDt 1) (regs [(1, 3)])) (fun t => t.dt != State.reset.dt) = true ∧
    nextIs (exec (.ldToSt 1) (regs [(1, 3)])) (fun t => t.st != State.reset.st) = true ∧
    nextIs (exec .cls (withCell 0 0 State.reset)) (fun t => cell t.disp 0 0 != cell (withCell 0 0 State.reset).disp 0 0)
      = true ∧
    nextIs (exec (.call 0x300#12) State.reset) (fun t => t.stack != State.reset.stack && t.sp != State.reset.sp) = true ∧
    nextIs (exec (.storeRegs 0) (withI 0x300 (regs [(0, 3)]))) (fun t => t.mem != State.reset.mem) = true ∧
    nextIs (exec (.ldI 0x300#12) State.reset) (fun t => t.i != State.reset.i) = true ∧
    nextIs (exec (.rnd 0 0#8) State.reset) (fun t => t.draws != State.reset.draws) = true ∧
    nextIs (exec (.ldImm 14 3#8) State.reset) (fun t => getV t 14 != getV State.reset 14) = true ∧
    nextIs (exec (.ldReg 0 1) (regs [(1, 3)])) (fun t => getV t 0 != getV (regs [(1, 3)]) 0) = true ∧
    nextIs (exec (.addReg 0 1) (regs [(0, 0xFF), (1, 1)])) (fun t => getV t vf != getV State.reset vf) = true ∧
    nextIs (exec (.drw 0 1 1) (withCell 0 0 State.reset)) (fun t => getV t vf != getV State.reset vf) = true ∧
    nextIs (exec (.ldKey 15) (withKeys [3] State.reset)) (fun t => getV t vf != getV State.reset vf) = true ∧
    nextIs (exec (.loadRegs 0) State.reset) (fun t => getV t 0 != getV State.reset 0) = true ∧
    nextIs (exec (.sknp 2) State.reset) (fun t => t.pc != State.reset.pc) = true ∧
    nextIs (exec (.ldKey 1) State.reset) (fun t => t.pc != State.reset.pc) = true ∧
    nextIs (exec .ret State.reset) (fun t => t.halt != State.reset.halt && t.fault != State.reset.fault) = true := by
  decide +kernel

theorem witness_OnlySixInstructionsWriteVfAsAFlag :
    nextIs (exec (.addReg 0 1) (regs [(0, 0xFF), (1, 1)])) (fun t => getV t vf != getV State.reset vf) = true := by decide

theorem witness_ArithmeticResultsAndFlags : (0 : Reg) ≠ vf ∧ (14 : Reg) ≠ vf := by decide

theorem witness_ShiftsIgnoreTheirYField : (1 : Reg) ≠ 2 ∧ (1 : Reg) ≠ vf := by decide

theorem witness_RandomByteIsMaskedByKk :
    ({ State.reset with rands := [0xA7] } : State).rands = 0xA7 :: [] ∧ State.reset.rands = [] := ⟨rfl, rfl⟩

theorem witness_StepIgnoresRandomByteUnlessRnd :
    ∀ (w : Word) (x : Reg) (kk : Byte), fetchWord State.reset = some w → decode w ≠ .instr (.rnd x kk) := by
  intro w x kk h
  have h0 : fetchWord State.reset = some 0x0000#16 := by decide
  rw [h0, Option.some.injEq] at h
  subst h
  have hd : decode 0x0000#16 = .unknown 0x0000#16 := by decide
  rw [hd]
  simp

theorem witness_CallPushesReturnAddress : (withSp 15 State.reset).sp.val < 16 ∧ (withSp 16 State.reset).sp.val = 16 := by
  decide

theorem witness_ReturnPopsPc :
    (0 < (withSp 1 State.reset).sp.val ∧ (withSp 1 State.reset).sp.val - 1 < 16) ∧
    (0 < (withSp 16 State.reset).sp.val ∧ (withSp 16 State.reset).sp.val - 1 < 16) ∧ State.reset.sp.val = 0 := by decide

theorem witness_StackIsLastInFirstOut :
    State.reset.sp.val + (List.replicate 16 (0x202 : Word)).length ≤ 16 ∧
    (withSp 16 State.reset).sp.val + ([] : List Word).length ≤ 16 := by decide

theorem witness_CallThenReturnResumesAfterCall : (withSp 15 State.reset).sp.val < 16 := by decide

theorem witness_RegisterSkips : nibble 0x5121#16 3 = 0x5 ∧ fieldN 0x5121#16 ≠ 0 ∧
    nibble 0x912F#16 3 = 0x9 ∧ fieldN 0x912F#16 ≠ 0 := by decide

theorem witness_SelfJumpIsAFixedPoint :
    FetchesWord (State.reset.withFetchWord 16 0x1200) (encode (.jp 0x200#12)) ∧
    (0x200#12).toNat = (State.reset.withFetchWord 16 0x1200).pc.toNat := by
  unfold FetchesWord
  decide

/-- Two states that differ in slot 0, which is stale with SP = 0, and an instruction that completes. -/
theorem witness_StaleStackSlotsAreUnobservable :
    SameBelowSp State.reset (withSlot 0 0x206 State.reset) ∧
    (withSlot 0 0x206 State.reset).stack ≠ State.reset.stack ∧
    nextIs (exec (.call 0x300#12) State.reset) (fun _ => true) = true :=
  ⟨⟨rfl, fun k h => absurd h (by simp [State.reset])⟩, by decide, by decide⟩

/-- The last base that works and the first that does not, with canonical memory. -/
theorem witness_BcdStoresThreeDigits :
    ((withI 4093 State.reset).mem.wf ∧ ea (withI 4093 State.reset) 3 ≤ 4096) ∧
    ((withI 4094 State.reset).mem.wf ∧ 4096 < ea (withI 4094 State.reset) 3) := by decide

theorem witness_BlockStoreWritesRegisters :
    ((withI 4095 State.reset).mem.wf ∧ ea (withI 4095 State.reset) ((0 : Reg).val + 1) ≤ 4096) ∧
    ((withI 4080 State.reset).mem.wf ∧ ea (withI 4080 State.reset) ((15 : Reg).val + 1) ≤ 4096) ∧
    ((withI 4095 State.reset).mem.wf ∧ 4096 < ea (withI 4095 State.reset) ((1 : Reg).val + 1)) ∧
    ((withI 4081 State.reset).mem.wf ∧ 4096 < ea (withI 4081 State.reset) ((15 : Reg).val + 1)) := by decide

theorem witness_BlockLoadReadsMemory :
    ea (withI 4095 State.reset) ((0 : Reg).val + 1) ≤ 4096 ∧ ea (withI 4080 State.reset) ((15 : Reg).val + 1) ≤ 4096 ∧
    4096 < ea (withI 4095 State.reset) ((1 : Reg).val + 1) ∧ 4096 < ea (withI 4081 State.reset) ((15 : Reg).val + 1) := by
  decide

theorem witness_StoredBytesAreFetched :
    (withI 4094 (atPc 4094 State.reset)).mem.wf ∧ 1 ≤ (1 : Reg).val ∧
    ea (withI 4094 (atPc 4094 State.reset)) ((1 : Reg).val + 1) ≤ 4096 ∧
    (withI 4094 (atPc 4094 State.reset)).pc = (withI 4094 (atPc 4094 State.reset)).i := by decide

theorem witness_DrawingTwiceRestoresTheDisplay :
    (composite 255 255 [0x80#8] blankDisplay).2 = false ∧ (composite 60 0 [] blankDisplay).2 = false := by
  decide +kernel

theorem witness_DrawCompositesAndSetsVf :
    ea (withI 4096 State.reset) (0 : Fin 16).val ≤ 4096 ∧ ea (withI 4081 State.reset) (15 : Fin 16).val ≤ 4096 ∧
    4096 < ea (withI 4097 State.reset) (0 : Fin 16).val ∧ 4096 < ea (withI 4082 State.reset) (15 : Fin 16).val := by decide

theorem witness_KeySkips :
    (getV State.reset 2).toNat < 16 ∧ (getV (regs [(2, 15)]) 2).toNat < 16 ∧ 15 < (getV (regs [(2, 16)]) 2).toNat := by
  decide

theorem witness_KeyWaitTakesTheLowestKey :
    ((withKeys [3, 7] State.reset).keys[(3 : Fin 16)] = true ∧
      ∀ j : Fin 16, j < 3 → (withKeys [3, 7] State.reset).keys[j] = false) ∧
    ((withKeys [15] State.reset).keys[(15 : Fin 16)] = true ∧
      ∀ j : Fin 16, j < 15 → (withKeys [15] State.reset).keys[j] = false) ∧
    (∀ k : Fin 16, State.reset.keys[k] = false) := by decide

theorem witness_KeyWaitStepLeavesTheState :
    FetchesWord (State.reset.withFetchWord 16 0xF10A) (encode (.ldKey 1)) ∧
    ∀ k : Fin 16, (State.reset.withFetchWord 16 0xF10A).keys[k] = false := by
  unfold FetchesWord
  decide

theorem witness_TickCountsBothTimersDown :
    State.reset.halt = false ∧ (latch .capacityError State.reset).halt = true := ⟨rfl, rfl⟩

theorem witness_TimersReachZeroAfterTheirValue : ({ State.reset with st := 3 } : State).halt = false := rfl

/-- A timer that goes up. -/
theorem witness_TimersRiseOnlyWhenWritten :
    ((regs [(1, 3)]).withFetchWord 16 0xF115).dt.toNat <
      (perform (.step 0) ((regs [(1, 3)]).withFetchWord 16 0xF115)).2.dt.toNat ∧
    ((regs [(1, 3)]).withFetchWord 16 0xF118).st.toNat <
      (perform (.step 0) ((regs [(1, 3)]).withFetchWord 16 0xF118)).2.st.toNat := by decide

theorem witness_SoundTimerIsNeverRead : ∀ x : Reg, Instr.ldFromDt 0 ≠ .ldToSt x := by simp

theorem witness_SetKeysReplacesTheSnapshot :
    State.reset.halt = false ∧ (latch .stackOverflow State.reset).halt = true := ⟨rfl, rfl⟩

theorem witness_InitializeWritesGlyphsAndPc :
    (List.replicate 80 (0xF0 : Byte)).length = 80 ∧ Memory.wf State.reset.mem ∧ State.reset.halt = false :=
  ⟨by decide, Memory.reset_wf, rfl⟩

/-- The longest program, and one byte more (L1, L2). -/
theorem witness_LoadProgramCopiesBytes :
    State.reset.halt = false ∧ Memory.wf State.reset.mem ∧ (List.replicate 3584 (0xAB : Byte)).length ≤ 3584 ∧
    3584 < (List.replicate 3585 (0xAB : Byte)).length :=
  ⟨rfl, Memory.reset_wf, by rw [List.length_replicate], by rw [List.length_replicate]; decide⟩

/-- Operations that change the stores they are listed for, and NEW clearing HALT. -/
theorem witness_OperationsChangeOnlyTheirStores :
    (perform (.setKeys (withKeys [4] State.reset).keys) State.reset).2.keys ≠ State.reset.keys ∧
    (perform .initCore (atPc 0x300 State.reset)).2.pc ≠ (atPc 0x300 State.reset).pc ∧
    (perform (.loadProgram [1]) State.reset).2.mem ≠ State.reset.mem ∧
    (perform .tickTimers { State.reset with dt := 3 }).2.dt ≠ ({ State.reset with dt := 3 } : State).dt ∧
    (perform (.step 0) (State.reset.withFetchWord 16 0x6005)).2.v ≠ (State.reset.withFetchWord 16 0x6005).v ∧
    (perform (.step 0) (State.reset.withFetchWord 16 0x00EE)).2.halt ≠ (State.reset.withFetchWord 16 0x00EE).halt ∧
    (perform (.loadProgram (List.replicate 3585 0xAB)) State.reset).2.fault ≠ State.reset.fault ∧
    ((latch .stackOverflow State.reset).halt = true ∧
      (perform .new (latch .stackOverflow State.reset)).2.halt = false) := by decide +kernel

theorem witness_HaltedCoreRefusesOperations :
    (latch .stackOverflow State.reset).halt = true ∧ Op.tickTimers ≠ .new ∧ Op.tickTimers ≠ .display :=
  ⟨rfl, by simp, by simp⟩

/-- An unknown word, a STEP that faults, and one that does not. -/
theorem witness_StepAnswersTheDriver :
    State.reset.halt = false ∧ State.reset.fault = none ∧
    FetchesWord State.reset 0x0000#16 ∧ decode 0x0000#16 = .unknown 0x0000#16 ∧
    nextIs (step { State.reset.withFetchWord 16 0x00EE with rands := 0 :: [] }) (fun t => t.fault.isSome) = true ∧
    FetchesWord (State.reset.withFetchWord 16 0x1204) 0x1204#16 ∧ decode 0x1204#16 = .instr (.jp 0x204#12) ∧
    nextIs (step { State.reset.withFetchWord 16 0x1204 with rands := 0 :: [] }) (fun t => t.fault == none) = true := by
  unfold FetchesWord
  decide

end Sys2Proof.Tests
end

section
/-! PROOFS. Control flow (spec/40_control_flow.md): the jumps 1nnn and Bnnn, and the four skips on registers. -/

namespace Sys2Proof.Proofs

open Machine Claims

/-! ### What a write of PC leaves unchanged -/

/-- A jump leaves every part but PC as it was. -/
theorem unchanged_jump (target : Word) (s : State) : Unchanged [.pc] s (jump target s) := by
  intro p hp
  cases p
  case pc => exact absurd (List.mem_singleton.mpr rfl) hp
  all_goals simp [Part.same]

/-- A conditional skip is a jump, to the next instruction or past it. -/
theorem skipIf_eq_jump (c : Bool) (s : State) : skipIf c s = jump (if c then s.pc + 2 else s.pc) s :=
  skipIf_eq c s

/-- A conditional skip leaves every part but PC as it was. -/
theorem unchanged_skipIf (c : Bool) (s : State) : Unchanged [.pc] s (skipIf c s) := by
  rw [skipIf_eq_jump]
  exact unchanged_jump _ s

/-! ### The meanings -/

theorem exec_jp (nnn : Addr12) (s : State) : exec (.jp nnn) s = .next (jump (zext12 nnn) s) := rfl

theorem exec_jpV0 (nnn : Addr12) (s : State) :
    exec (.jpV0 nnn) s = .next (jump (zext12 nnn + zext8 (getV s 0)) s) := rfl

theorem exec_seImm (x : Reg) (kk : Byte) (s : State) :
    exec (.seImm x kk) s = .next (skipIf (getV s x == kk) s) := rfl

theorem exec_sneImm (x : Reg) (kk : Byte) (s : State) :
    exec (.sneImm x kk) s = .next (skipIf (getV s x != kk) s) := rfl

theorem exec_seReg (x y : Reg) (s : State) :
    exec (.seReg x y) s = .next (skipIf (getV s x == getV s y) s) := rfl

theorem exec_sneReg (x y : Reg) (s : State) :
    exec (.sneReg x y) s = .next (skipIf (getV s x != getV s y) s) := rfl

/-! ### Jumps -/

/-- A 12-bit address and a byte add up to at most 4350, so the 16-bit sum does not wrap (R89, decision D9). -/
theorem zext12_add_zext8_toNat (nnn : Addr12) (b : Byte) :
    (zext12 nnn + zext8 b).toNat = nnn.toNat + b.toNat := by
  have hn := nnn.isLt
  have hb := b.isLt
  rw [BitVec.toNat_add, zext12_toNat, zext8_toNat]
  omega

/-- Settles O26: both are jumps, and the target of Bnnn does not wrap. -/
theorem jumpsReplacePc : Obligations.JumpsReplacePc := by
  intro s nnn
  refine ⟨⟨_, exec_jp nnn s, ?_, unchanged_jump _ s⟩, ⟨_, exec_jpV0 nnn s, ?_, unchanged_jump _ s⟩⟩
  · rw [jump_pc, zext12_toNat]
  · rw [jump_pc, zext12_add_zext8_toNat]

/-! ### Skips -/

/-- A skip taken when two bytes are equal adds 2 to PC exactly then. -/
theorem skipIf_beq_pc (a b : Byte) (s : State) :
    (skipIf (a == b) s).pc = if a = b then s.pc + 2 else s.pc := by
  simp only [skipIf_pc, beq_iff_eq]

/-- A skip taken when two bytes differ leaves PC exactly when they are equal. -/
theorem skipIf_bne_pc (a b : Byte) (s : State) :
    (skipIf (a != b) s).pc = if a = b then s.pc else s.pc + 2 := by
  simp only [skipIf_pc, bne_iff_ne, ite_not]

/-- A word whose low digit is not 0 is unknown to the groups that need 0 there (R66). -/
theorem decodeZeroLow_of_fieldN_ne_zero (i : Instr) {w : Word} (h : fieldN w ≠ 0) :
    decodeZeroLow i w = .unknown w := by
  unfold decodeZeroLow
  split
  case h_1 h0 => exact absurd (Fin.ext h0) h
  case h_2 => rfl

/-- Group 5 decodes by its low digit (R65). -/
theorem decode_group5 {w : Word} (h : (nibble w 3).val = 0x5) :
    decode w = decodeZeroLow (.seReg (fieldX w) (fieldY w)) w := by
  simp only [decode, h]

/-- Group 9 decodes by its low digit (R65). -/
theorem decode_group9 {w : Word} (h : (nibble w 3).val = 0x9) :
    decode w = decodeZeroLow (.sneReg (fieldX w) (fieldY w)) w := by
  simp only [decode, h]

/-- Settles O31: each of the four is a skip on its comparison, and groups 5 and 9 decode by their low digit. -/
theorem registerSkips : Obligations.RegisterSkips := by
  refine ⟨fun s x y kk => ⟨?_, ?_, ?_, ?_⟩, fun w hgroup hlow => ?_⟩
  · exact ⟨_, exec_seImm x kk s, skipIf_beq_pc _ _ s, unchanged_skipIf _ s⟩
  · exact ⟨_, exec_sneImm x kk s, skipIf_bne_pc _ _ s, unchanged_skipIf _ s⟩
  · exact ⟨_, exec_seReg x y s, skipIf_beq_pc _ _ s, unchanged_skipIf _ s⟩
  · exact ⟨_, exec_sneReg x y s, skipIf_bne_pc _ _ s, unchanged_skipIf _ s⟩
  · rcases hgroup with h5 | h9
    · rw [decode_group5 (congrArg Fin.val h5), decodeZeroLow_of_fieldN_ne_zero _ hlow]
    · rw [decode_group9 (congrArg Fin.val h9), decodeZeroLow_of_fieldN_ne_zero _ hlow]

end Sys2Proof.Proofs
end

section
/-! PROOFS. Arithmetic and logic (spec/41_alu.md): the loads, the bitwise operations, 7xkk, and the five flag writers
with x other than 15. -/

namespace Sys2Proof.Proofs

open Machine Claims

/-! ### What register writes leave unchanged -/

/-- Frames compose: what two changes in turn both leave is left by the whole. -/
theorem unchanged_trans {but : List Part} {s t u : State} (hst : Unchanged but s t) (htu : Unchanged but t u) :
    Unchanged but s u := by
  intro p hp
  have h₁ := hst p hp
  have h₂ := htu p hp
  cases p
  case regs => exact fun r => (h₂ r).trans (h₁ r)
  case memory => exact fun a => (h₂ a).trans (h₁ a)
  case stack | latch | random => exact ⟨h₂.1.trans h₁.1, h₂.2.trans h₁.2⟩
  all_goals exact Eq.trans h₂ h₁

/-- A register write leaves every part but the registers as it was. -/
theorem unchanged_setV (x : Reg) (b : Byte) (s : State) : Unchanged [.regs] s (setV x b s) := by
  intro p hp
  cases p
  case regs => exact absurd (List.mem_singleton.mpr rfl) hp
  all_goals simp [Part.same]

/-- A register that is not the destination keeps its value. -/
theorem getV_setV_of_ne {x r : Reg} (h : r ≠ x) (b : Byte) (s : State) : getV (setV x b s) r = getV s r := by
  rw [getV_setV, if_neg (Ne.symm h)]

/-- The destination holds the byte written. -/
theorem getV_setV_self (x : Reg) (b : Byte) (s : State) : getV (setV x b s) x = b := by
  rw [getV_setV, if_pos rfl]

/-- A register write reaches its destination, and no other register or part of the state. -/
theorem writesReg_setV (x : Reg) (b : Byte) (s : State) : WritesReg x b s (setV x b s) :=
  ⟨getV_setV_self x b s, fun _ hr => getV_setV_of_ne (List.ne_of_not_mem_cons hr) b s, unchanged_setV x b s⟩

/-- A register other than the two that are written keeps its value, whichever write comes first. -/
theorem otherRegs_setV_setV {but : List Reg} {x y : Reg} (hx : x ∈ but) (hy : y ∈ but) (a b : Byte) (s : State) :
    OtherRegs but s (setV y b (setV x a s)) := by
  intro r hr
  rw [getV_setV_of_ne (ne_of_mem_of_not_mem hy hr).symm, getV_setV_of_ne (ne_of_mem_of_not_mem hx hr).symm]

/-! ### A result and a flag -/

/-- What R113 says of a flag writer with x other than 15: the numbers in Vx and VF, and that nothing else changes. -/
def WritesResultAndFlag (x : Reg) (result flagValue : Nat) (s t : State) : Prop :=
  (getV t x).toNat = result ∧ (getV t vf).toNat = flagValue ∧ OtherRegs [x, vf] s t ∧ Unchanged [.regs] s t

section
variable {x : Reg} {result f : Byte} {m n : Nat}

/-- Where Vx is not VF, the write of the flag leaves the result in Vx. -/
theorem resultThenFlag_writes (hx : x ≠ vf) (s : State) (hr : result.toNat = m) (hf : f.toNat = n) :
    WritesResultAndFlag x m n s (resultThenFlag x result f s) := by
  unfold resultThenFlag
  refine ⟨?_, ?_, otherRegs_setV_setV (by simp) (by simp) _ _ s,
    unchanged_trans (unchanged_setV _ _ s) (unchanged_setV _ _ _)⟩
  · rw [getV_setV_of_ne hx, getV_setV_self, hr]
  · rw [getV_setV_self, hf]

/-- Where Vx is not VF, the write of the result leaves the flag in VF. -/
theorem flagThenResult_writes (hx : x ≠ vf) (s : State) (hr : result.toNat = m) (hf : f.toNat = n) :
    WritesResultAndFlag x m n s (flagThenResult x result f s) := by
  unfold flagThenResult
  refine ⟨?_, ?_, otherRegs_setV_setV (by simp) (by simp) _ _ s,
    unchanged_trans (unchanged_setV _ _ s) (unchanged_setV _ _ _)⟩
  · rw [getV_setV_self, hr]
  · rw [getV_setV_of_ne hx.symm, getV_setV_self, hf]

end

/-! ### Flags and shifts as numbers -/

theorem flag_decide_toNat (p : Prop) [Decidable p] : (flag (decide p)).toNat = if p then 1 else 0 := by
  by_cases h : p <;> simp [flag, h]

/-- The carry is 1 exactly when the sum exceeds 255 (R106). -/
theorem carry_toNat (a b : Byte) : (carry a b).toNat = if a.toNat + b.toNat > 255 then 1 else 0 :=
  flag_decide_toNat _

/-- NOT borrow is 1 exactly when the first operand is no smaller (R107, R109). -/
theorem notBorrow_toNat (a b : Byte) : (notBorrow a b).toNat = if a.toNat ≥ b.toNat then 1 else 0 :=
  flag_decide_toNat _

/-- A bit handed out as a flag is that binary digit of the byte. -/
theorem flag_getLsbD_toNat (a : Byte) (k : Nat) : (flag (a.getLsbD k)).toNat = a.toNat / 2 ^ k % 2 := by
  rw [← BitVec.testBit_toNat, Nat.testBit_eq_decide_div_mod_eq, flag_decide_toNat]
  split <;> omega

theorem bitOutRight_toNat (a : Byte) : (bitOutRight a).toNat = a.toNat % 2 := by
  rw [bitOutRight, flag_getLsbD_toNat, pow_zero, Nat.div_one]

theorem bitOutLeft_toNat (a : Byte) : (bitOutLeft a).toNat = a.toNat / 128 := by
  have ha := a.isLt
  rw [bitOutLeft, flag_getLsbD_toNat]
  omega

/-- A shift right by one halves (R108). -/
theorem ushiftRight_one_toNat (a : Byte) : (a >>> 1).toNat = a.toNat / 2 := by
  rw [BitVec.toNat_ushiftRight, Nat.shiftRight_one]

/-- A shift left by one doubles modulo 256 (R110). -/
theorem shiftLeft_one_toNat (a : Byte) : (a <<< 1).toNat = a.toNat * 2 % 256 := by
  rw [BitVec.toNat_shiftLeft, Nat.shiftLeft_eq, pow_one]

/-! ### The meanings -/

theorem exec_ldImm (x : Reg) (kk : Byte) (s : State) : exec (.ldImm x kk) s = .next (setV x kk s) := rfl

theorem exec_addImm (x : Reg) (kk : Byte) (s : State) :
    exec (.addImm x kk) s = .next (setV x (addByte (getV s x) kk) s) := rfl

theorem exec_ldReg (x y : Reg) (s : State) : exec (.ldReg x y) s = .next (setV x (getV s y) s) := rfl

theorem exec_ldFromDt (x : Reg) (s : State) : exec (.ldFromDt x) s = .next (setV x s.dt s) := rfl

theorem exec_orReg (x y : Reg) (s : State) :
    exec (.orReg x y) s = .next (setV x (getV s x ||| getV s y) s) := rfl

theorem exec_andReg (x y : Reg) (s : State) :
    exec (.andReg x y) s = .next (setV x (getV s x &&& getV s y) s) := rfl

theorem exec_xorReg (x y : Reg) (s : State) :
    exec (.xorReg x y) s = .next (setV x (getV s x ^^^ getV s y) s) := rfl

theorem exec_addReg (x y : Reg) (s : State) : exec (.addReg x y) s =
    .next (resultThenFlag x (addByte (getV s x) (getV s y)) (carry (getV s x) (getV s y)) s) := rfl

theorem exec_subReg (x y : Reg) (s : State) : exec (.subReg x y) s =
    .next (resultThenFlag x (subByte (getV s x) (getV s y)) (notBorrow (getV s x) (getV s y)) s) := rfl

theorem exec_subnReg (x y : Reg) (s : State) : exec (.subnReg x y) s =
    .next (resultThenFlag x (subByte (getV s y) (getV s x)) (notBorrow (getV s y) (getV s x)) s) := rfl

theorem exec_shr (x y : Reg) (s : State) : exec (.shr x y) s =
    .next (flagThenResult x (getV s x >>> 1) (bitOutRight (getV s x)) s) := rfl

theorem exec_shl (x y : Reg) (s : State) : exec (.shl x y) s =
    .next (flagThenResult x (getV s x <<< 1) (bitOutLeft (getV s x)) s) := rfl

/-! ### The obligations -/

/-- Settles O20: one register write, of the sum. -/
theorem addImmediateSetsNoFlag : Obligations.AddImmediateSetsNoFlag := by
  intro s x kk
  obtain ⟨hsum, hother, hframe⟩ := writesReg_setV x (addByte (getV s x) kk) s
  exact ⟨_, exec_addImm x kk s, by rw [hsum, addByte_toNat], hother, hframe⟩

/-- Settles O21: with Vx and VF two registers, both writes of each flag writer survive; 7xkk is
`addImmediateSetsNoFlag`. -/
theorem arithmeticResultsAndFlags : Obligations.ArithmeticResultsAndFlags := by
  intro s x y hx
  refine ⟨⟨_, exec_addReg x y s, ?add⟩, ⟨_, exec_subReg x y s, ?sub⟩, ⟨_, exec_subnReg x y s, ?subn⟩,
    ⟨_, exec_shr x y s, ?shr⟩, ⟨_, exec_shl x y s, ?shl⟩, fun kk => ?addImm⟩
  case add => exact resultThenFlag_writes hx s (addByte_toNat _ _) (carry_toNat _ _)
  case sub => exact resultThenFlag_writes hx s (subByte_toNat _ _) (notBorrow_toNat _ _)
  case subn => exact resultThenFlag_writes hx s (subByte_toNat _ _) (notBorrow_toNat _ _)
  case shr => exact flagThenResult_writes hx s (ushiftRight_one_toNat _) (bitOutRight_toNat _)
  case shl => exact flagThenResult_writes hx s (shiftLeft_one_toNat _) (bitOutLeft_toNat _)
  case addImm =>
    obtain ⟨t, hexec, hsum, hother, hframe⟩ := addImmediateSetsNoFlag s x kk
    exact ⟨t, hexec, hsum, hother vf (by simpa using hx.symm), hother, hframe⟩

/-- Settles O18: each of the three is one register write. -/
theorem loadsWriteVxOnly : Obligations.LoadsWriteVxOnly :=
  ⟨fun s x kk => ⟨_, exec_ldImm x kk s, writesReg_setV x _ s⟩,
    fun s x y => ⟨_, exec_ldReg x y s, writesReg_setV x _ s⟩,
    fun s x => ⟨_, exec_ldFromDt x s, writesReg_setV x _ s⟩⟩

/-- Settles O19: each of the three is one register write. -/
theorem logicWritesVxOnly : Obligations.LogicWritesVxOnly := fun s x y =>
  ⟨⟨_, exec_orReg x y s, writesReg_setV x _ s⟩, ⟨_, exec_andReg x y s, writesReg_setV x _ s⟩,
    ⟨_, exec_xorReg x y s, writesReg_setV x _ s⟩⟩

end Sys2Proof.Proofs
end

section
/-! PROOFS. Index register (spec/42_index_memory.md): Annn, Fx1E and Fx29. -/

namespace Sys2Proof.Proofs

open Machine Claims

/-- A write of I leaves every part but I as it was. -/
theorem unchanged_setI (a : Word) (s : State) : Unchanged [.index] s (setI a s) := by
  intro p hp
  cases p
  case index => exact absurd (List.mem_singleton.mpr rfl) hp
  all_goals simp [Part.same]

/-! ### The meanings -/

theorem exec_ldI (nnn : Addr12) (s : State) : exec (.ldI nnn) s = .next (setI (zext12 nnn) s) := rfl

theorem exec_addI (x : Reg) (s : State) : exec (.addI x) s = .next (setI (s.i + zext8 (getV s x)) s) := rfl

theorem exec_ldGlyph (x : Reg) (s : State) : exec (.ldGlyph x) s = .next (setI (zext8 (getV s x) * 5) s) := rfl

/-! ### The addresses as numbers -/

/-- I plus a byte wraps at 65536 (R121). -/
theorem add_zext8_toNat (a : Word) (b : Byte) : (a + zext8 b).toNat = (a.toNat + b.toNat) % 65536 := by
  rw [BitVec.toNat_add, zext8_toNat]

/-- Five times a byte is at most 1275, so the 16-bit product does not wrap (R122). -/
theorem zext8_mul_five_toNat (b : Byte) : (zext8 b * 5).toNat = b.toNat * 5 := by
  have hb := b.isLt
  rw [BitVec.toNat_mul, zext8_toNat, show (5 : Word).toNat = 5 from rfl]
  omega

/-- Settles O34: each of the three is one write of I. -/
theorem indexRegisterWrites : Obligations.IndexRegisterWrites := by
  intro s nnn x
  refine ⟨⟨_, exec_ldI nnn s, ?_, unchanged_setI _ s⟩, ⟨_, exec_addI x s, ?_, unchanged_setI _ s⟩,
    ⟨_, exec_ldGlyph x s, ?_, unchanged_setI _ s⟩⟩
  · rw [setI_i, zext12_toNat]
  · rw [setI_i, add_zext8_toNat]
  · rw [setI_i, zext8_mul_five_toNat]

end Sys2Proof.Proofs
end

section
/-! PROOFS. Display (spec/43_display.md): 00E0. -/

namespace Sys2Proof.Proofs

open Machine Claims

/-- A write of the display leaves every part but the display as it was. -/
theorem unchanged_setDisp (d : Display) (s : State) : Unchanged [.display] s { s with disp := d } := by
  intro p hp
  cases p
  case display => exact absurd (List.mem_singleton.mpr rfl) hp
  case regs => exact fun _ => rfl
  all_goals simp [Part.same]

theorem exec_cls (s : State) : exec .cls s = .next { s with disp := blankDisplay } := rfl

/-- A blank display has no bit set, whether or not its index is a cell's. -/
theorem getLsbD_blankDisplay (k : Nat) : blankDisplay.getLsbD k = false := BitVec.getLsbD_zero

/-- Settles O39: the step writes the display alone, with the blank one. -/
theorem clearDisplayClearsEveryCell : Obligations.ClearDisplayClearsEveryCell := fun s =>
  ⟨_, exec_cls s, cell_blankDisplay, fun k _ => getLsbD_blankDisplay k, unchanged_setDisp blankDisplay s⟩

end Sys2Proof.Proofs
end

section
/-! PROOFS. Keys and timers (spec/44_keys_timers.md): Fx0A, Fx15 and Fx18. -/

namespace Sys2Proof.Proofs

open Machine Claims

/-! ### What the writes leave unchanged -/

/-- A write of DT leaves every part but DT as it was. -/
theorem unchanged_setDt (b : Byte) (s : State) : Unchanged [.delay] s { s with dt := b } := by
  intro p hp
  cases p
  case delay => exact absurd (List.mem_singleton.mpr rfl) hp
  case regs => exact fun _ => rfl
  all_goals simp [Part.same]

/-- A write of ST leaves every part but ST as it was. -/
theorem unchanged_setSt (b : Byte) (s : State) : Unchanged [.sound] s { s with st := b } := by
  intro p hp
  cases p
  case sound => exact absurd (List.mem_singleton.mpr rfl) hp
  case regs => exact fun _ => rfl
  all_goals simp [Part.same]

/-- The rewind is a jump, back over the instruction just fetched. -/
theorem rewind_eq_jump (s : State) : rewind s = jump (s.pc - 2) s := rfl

/-- A rewind leaves every part but PC as it was. -/
theorem unchanged_rewind (s : State) : Unchanged [.pc] s (rewind s) := by
  rw [rewind_eq_jump]
  exact unchanged_jump _ s

/-! ### The meanings -/

theorem exec_ldKey (x : Reg) (s : State) : exec (.ldKey x) s = execLdKey x s := rfl

theorem exec_ldToDt (x : Reg) (s : State) : exec (.ldToDt x) s = .next { s with dt := getV s x } := rfl

theorem exec_ldToSt (x : Reg) (s : State) : exec (.ldToSt x) s = .next { s with st := getV s x } := rfl

/-! ### The key wait -/

/-- With a lowest key down, Fx0A writes its index to Vx. -/
theorem exec_ldKey_of_lowestKey_eq_some {k : Fin 16} {s : State} (h : lowestKey s.keys = some k) (x : Reg) :
    exec (.ldKey x) s = .next (setV x (BitVec.ofNat 8 k.val) s) := by
  rw [exec_ldKey, execLdKey_next]
  exact .inl ⟨k, h, rfl⟩

/-- With no key down, Fx0A rewinds. -/
theorem exec_ldKey_of_lowestKey_eq_none {s : State} (h : lowestKey s.keys = none) (x : Reg) :
    exec (.ldKey x) s = .next (rewind s) := by
  rw [exec_ldKey, execLdKey_next]
  exact .inr ⟨h, rfl⟩

/-- A key index fits in a byte. -/
theorem keyByte_toNat (k : Fin 16) : (BitVec.ofNat 8 k.val).toNat = k.val := by
  rw [BitVec.toNat_ofNat]
  omega

/-- Settles O45: by `lowestKey_eq_some` and `lowestKey_eq_none` the two clauses are the two outcomes of the search for
the lowest key, one a register write and the other a rewind. -/
theorem keyWaitTakesTheLowestKey : Obligations.KeyWaitTakesTheLowestKey := by
  refine fun s x => ⟨fun k hdown hbelow => ?_, fun hup => ?_⟩
  · obtain ⟨hkey, hother, hframe⟩ := writesReg_setV x (BitVec.ofNat 8 k.val) s
    exact ⟨_, exec_ldKey_of_lowestKey_eq_some (lowestKey_eq_some.mpr ⟨hdown, hbelow⟩) x,
      by rw [hkey, keyByte_toNat], hother, hframe⟩
  · exact ⟨_, exec_ldKey_of_lowestKey_eq_none (lowestKey_eq_none.mpr hup) x, rewind_pc s, unchanged_rewind s⟩

/-! ### The timers -/

/-- Settles O47: each of the two is one write, of its timer. -/
theorem timerWrites : Obligations.TimerWrites := fun s x =>
  ⟨⟨_, exec_ldToDt x s, rfl, unchanged_setDt _ s⟩, ⟨_, exec_ldToSt x s, rfl, unchanged_setSt _ s⟩⟩

end Sys2Proof.Proofs
end

section
/-! PROOFS. Encoding (spec/30_encoding.md): decode and encode are inverse, the mask and match table, the unknown words,
and the assembler on a disassembled line. -/

namespace Sys2Proof.Proofs

open Machine Claims

/-! ### A word is the format of its fields -/

/-- The fields n1 and nnn are the whole word (R61, R63). -/
theorem formatA_fields {w : Word} {n1 : BitVec 4} (h : (nibble w 3).val = n1.toNat) :
    formatA n1 (fieldNNN w) = w := by
  have hw := w.isLt
  rw [nibble_val] at h
  apply BitVec.eq_of_toNat_eq
  rw [formatA_toNat, fieldNNN_toNat]
  omega

/-- The fields n1, x and kk are the whole word (R61, R63). -/
theorem formatI_fields {w : Word} {n1 : BitVec 4} (h : (nibble w 3).val = n1.toNat) :
    formatI n1 (fieldX w) (fieldKK w) = w := by
  have hw := w.isLt
  rw [nibble_val] at h
  apply BitVec.eq_of_toNat_eq
  rw [formatI_toNat, fieldX, nibble_val, fieldKK_toNat]
  omega

/-- The fields n1, x, y and n are the whole word (R61, R63). -/
theorem formatR_fields {w : Word} {n1 : BitVec 4} (h : (nibble w 3).val = n1.toNat) :
    formatR n1 (fieldX w) (fieldY w) (fieldN w) = w := by
  have hw := w.isLt
  rw [nibble_val] at h
  apply BitVec.eq_of_toNat_eq
  rw [formatR_toNat, fieldX, fieldY, fieldN, nibble_val, nibble_val, nibble_val]
  omega

/-- `formatI_fields`, where the low byte is a function code. -/
theorem formatI_fields_code {w : Word} {n1 : BitVec 4} {kk : Byte} (h : (nibble w 3).val = n1.toNat)
    (hkk : fieldKK w = kk) : formatI n1 (fieldX w) kk = w :=
  hkk ▸ formatI_fields h

/-- `formatR_fields`, where the low digit is a function code. -/
theorem formatR_fields_code {w : Word} {n1 : BitVec 4} {n : Fin 16} (h : (nibble w 3).val = n1.toNat)
    (hn : fieldN w = n) : formatR n1 (fieldX w) (fieldY w) n = w :=
  hn ▸ formatR_fields h

/-! ### Decode of encode -/

/-- Settles O1, format by format: the decoder finds n1, the function code and the operands where the format put them. -/
theorem decodeOfEncode : Obligations.DecodeOfEncode := by
  intro i
  cases i
  case cls | ret => rfl
  case jp | call | ldI | jpV0 => simp [encode, decode, n1_formatA, nnn_formatA]
  case seImm | sneImm | ldImm | addImm | rnd => simp [encode, decode, n1_formatI, x_formatI, kk_formatI]
  case seReg | sneReg => simp [encode, decode, decodeZeroLow, n1_formatR, x_formatR, y_formatR, n_formatR]
  case ldReg | orReg | andReg | xorReg | addReg | subReg | shr | subnReg | shl =>
    simp [encode, decode, decodeGroup8, n1_formatR, x_formatR, y_formatR, n_formatR]
  case drw => simp [encode, decode, n1_formatR, x_formatR, y_formatR, n_formatR]
  case skp | sknp => simp [encode, decode, decodeGroupE, n1_formatI, x_formatI, kk_formatI]
  case ldFromDt | ldKey | ldToDt | ldToSt | addI | ldGlyph | ldBcd | storeRegs | loadRegs =>
    simp [encode, decode, decodeGroupF, n1_formatI, x_formatI, kk_formatI]

/-! ### The words that are no instruction -/

/-- The word is one of those R66 lists, group by group. -/
def UnknownWord (w : Word) : Prop :=
  (nibble w 3 = 0x0 ∧ w ≠ 0x00E0#16 ∧ w ≠ 0x00EE#16) ∨
  (nibble w 3 = 0x5 ∧ fieldN w ≠ 0) ∨
  (nibble w 3 = 0x8 ∧ fieldN w ∈ [0x8, 0x9, 0xA, 0xB, 0xC, 0xD, 0xF]) ∨
  (nibble w 3 = 0x9 ∧ fieldN w ≠ 0) ∨
  (nibble w 3 = 0xE ∧ fieldKK w ∉ [0x9E#8, 0xA1#8]) ∨
  (nibble w 3 = 0xF ∧
    fieldKK w ∉ [0x07#8, 0x0A#8, 0x15#8, 0x18#8, 0x1E#8, 0x29#8, 0x33#8, 0x55#8, 0x65#8])

/-- What the decoder can answer for a word: an instruction whose word it is, or the word itself, one of R66's. -/
def DecodesOk (w : Word) (d : Decoded) : Prop :=
  (∃ i, d = .instr i ∧ encode i = w) ∨ (d = .unknown w ∧ UnknownWord w)

theorem decodesOk_instr {w : Word} {i : Instr} (h : encode i = w) : DecodesOk w (.instr i) := .inl ⟨i, rfl, h⟩

theorem decodesOk_unknown {w : Word} (h : UnknownWord w) : DecodesOk w (.unknown w) := .inr ⟨rfl, h⟩

section
variable {w : Word}

theorem decodeGroup0_ok (h : (nibble w 3).val = 0) : DecodesOk w (decodeGroup0 w) := by
  unfold decodeGroup0
  split
  case h_1 hw => exact decodesOk_instr (BitVec.eq_of_toNat_eq hw.symm)
  case h_2 hw => exact decodesOk_instr (BitVec.eq_of_toNat_eq hw.symm)
  case h_3 h1 h2 =>
    exact decodesOk_unknown (.inl ⟨Fin.ext h, fun e => h1 (e ▸ rfl), fun e => h2 (e ▸ rfl)⟩)

/-- Groups 5 and 9, for an instruction whose word is the format of the fields with low digit 0. -/
theorem decodeZeroLow_ok {i : Instr} (hi : fieldN w = 0 → encode i = w) (hu : fieldN w ≠ 0 → UnknownWord w) :
    DecodesOk w (decodeZeroLow i w) := by
  unfold decodeZeroLow
  split
  case h_1 hn => exact decodesOk_instr (hi (Fin.ext hn))
  case h_2 hn => exact decodesOk_unknown (hu fun e => hn (e ▸ rfl))

theorem decodeGroup8_ok (h : (nibble w 3).val = 8) : DecodesOk w (decodeGroup8 w) := by
  unfold decodeGroup8
  split
  case h_10 =>
    refine decodesOk_unknown (.inr (.inr (.inl ⟨Fin.ext h, ?_⟩)))
    generalize fieldN w = n at *
    revert n
    decide
  all_goals
    rename_i hn
    exact decodesOk_instr (formatR_fields_code h (Fin.ext hn))

theorem decodeGroupE_ok (h : (nibble w 3).val = 0xE) : DecodesOk w (decodeGroupE w) := by
  unfold decodeGroupE
  split
  case h_3 h1 h2 =>
    refine decodesOk_unknown (.inr (.inr (.inr (.inr (.inl ⟨Fin.ext h, ?_⟩)))))
    simpa [← BitVec.toNat_inj] using ⟨h1, h2⟩
  all_goals
    rename_i hkk
    exact decodesOk_instr (formatI_fields_code h (BitVec.eq_of_toNat_eq hkk))

theorem decodeGroupF_ok (h : (nibble w 3).val = 0xF) : DecodesOk w (decodeGroupF w) := by
  unfold decodeGroupF
  split
  case h_10 =>
    refine decodesOk_unknown (.inr (.inr (.inr (.inr (.inr ⟨Fin.ext h, ?_⟩)))))
    simp only [imp_false] at *
    simp [← BitVec.toNat_inj, *]
  all_goals
    rename_i hkk
    exact decodesOk_instr (formatI_fields_code h (BitVec.eq_of_toNat_eq hkk))

end

/-- The decoder, group by group. -/
theorem decode_ok (w : Word) : DecodesOk w (decode w) := by
  unfold decode
  split
  case h_1 h => exact decodeGroup0_ok h
  case h_6 h =>
    exact decodeZeroLow_ok (formatR_fields_code h) fun hn => .inr (.inl ⟨Fin.ext h, hn⟩)
  case h_9 h => exact decodeGroup8_ok h
  case h_10 h =>
    exact decodeZeroLow_ok (formatR_fields_code h) fun hn => .inr (.inr (.inr (.inl ⟨Fin.ext h, hn⟩)))
  case h_15 h => exact decodeGroupE_ok h
  case h_16 =>
    simp only [imp_false] at *
    exact decodeGroupF_ok (by omega)
  case h_2 h | h_3 h | h_11 h | h_12 h => exact decodesOk_instr (formatA_fields h)
  case h_4 h | h_5 h | h_7 h | h_8 h | h_13 h => exact decodesOk_instr (formatI_fields h)
  case h_14 h => exact decodesOk_instr (formatR_fields h)

/-- The decoder answers an instruction exactly for that instruction's word. -/
theorem decode_eq_instr {w : Word} {i : Instr} : decode w = .instr i ↔ encode i = w := by
  refine ⟨fun h => ?_, fun h => h ▸ decodeOfEncode i⟩
  rcases decode_ok w with ⟨j, hj, hw⟩ | ⟨hu, -⟩
  · rw [hj, Decoded.instr.injEq] at h
    exact h ▸ hw
  · rw [hu] at h
    exact absurd h (by simp)

/-- Settles O2: one half of `decode_eq_instr`. -/
theorem encodeOfDecode : Obligations.EncodeOfDecode := fun _ _ => decode_eq_instr.mp

/-- Group 0 decodes by the whole word (R65). -/
theorem decode_group0 {w : Word} (h : (nibble w 3).val = 0x0) : decode w = decodeGroup0 w := by
  simp only [decode, h]

/-- Group 8 decodes by its low digit (R65). -/
theorem decode_group8 {w : Word} (h : (nibble w 3).val = 0x8) : decode w = decodeGroup8 w := by
  simp only [decode, h]

/-- Group E decodes by its low byte (R65). -/
theorem decode_groupE {w : Word} (h : (nibble w 3).val = 0xE) : decode w = decodeGroupE w := by
  simp only [decode, h]

/-- Group F decodes by its low byte (R65). -/
theorem decode_groupF {w : Word} (h : (nibble w 3).val = 0xF) : decode w = decodeGroupF w := by
  simp only [decode, h]

/-- The decoder answers every word of R66 as unknown. -/
theorem decode_of_unknownWord {w : Word} (h : UnknownWord w) : decode w = .unknown w := by
  obtain ⟨h0, hcls, hret⟩ | ⟨h5, hn⟩ | ⟨h8, hn⟩ | ⟨h9, hn⟩ | ⟨hE, hkk⟩ | ⟨hF, hkk⟩ := h
  · rw [decode_group0 (congrArg Fin.val h0), decodeGroup0]
    split
    case h_1 hw => exact absurd (BitVec.eq_of_toNat_eq hw) hcls
    case h_2 hw => exact absurd (BitVec.eq_of_toNat_eq hw) hret
    case h_3 => rfl
  · rw [decode_group5 (congrArg Fin.val h5), decodeZeroLow_of_fieldN_ne_zero _ hn]
  · rw [decode_group8 (congrArg Fin.val h8), decodeGroup8]
    simp only [List.mem_cons, List.not_mem_nil, or_false] at hn
    rcases hn with hn | hn | hn | hn | hn | hn | hn <;> rw [hn] <;> rfl
  · rw [decode_group9 (congrArg Fin.val h9), decodeZeroLow_of_fieldN_ne_zero _ hn]
  · rw [decode_groupE (congrArg Fin.val hE), decodeGroupE]
    split
    case h_3 => rfl
    all_goals
      rename_i hw
      simp [← BitVec.toNat_inj, hw] at hkk
  · rw [decode_groupF (congrArg Fin.val hF), decodeGroupF]
    split
    case h_10 => rfl
    all_goals
      rename_i hw
      simp [← BitVec.toNat_inj, hw] at hkk

/-- The decoder answers an unknown word exactly for the words of R66. -/
theorem decode_eq_unknown {w : Word} : decode w = .unknown w ↔ UnknownWord w := by
  refine ⟨fun h => ?_, decode_of_unknownWord⟩
  rcases decode_ok w with ⟨i, hi, -⟩ | ⟨-, hw⟩
  · exact absurd (hi.symm.trans h) (by simp)
  · exact hw

/-- Settles O4: `UnknownWord` is R66's table. -/
theorem unknownWordsAreExactly : Obligations.UnknownWordsAreExactly := fun _ => decode_eq_unknown

/-- Settles O5, by evaluation. -/
theorem sampleWordsDecode : Obligations.SampleWordsDecode := by
  unfold Obligations.SampleWordsDecode
  decide

/-! ### The mask and match table -/

section
open Laws.EncodingRow

/-- Every instruction's row is in the table and covers its word: the family EncodingRow over all constructors. -/
theorem encodingRow (i : Instr) : Statement i := by
  cases i
  exacts [cls, ret, jp _, call _, seImm _ _, sneImm _ _, seReg _ _, ldImm _ _, addImm _ _, ldReg _ _, orReg _ _,
    andReg _ _, xorReg _ _, addReg _ _, subReg _ _, shr _ _, subnReg _ _, shl _ _, sneReg _ _, ldI _, jpV0 _, rnd _ _,
    drw _ _ _, skp _, sknp _, ldFromDt _, ldKey _, ldToDt _, ldToSt _, addI _, ldGlyph _, ldBcd _, storeRegs _,
    loadRegs _]

end

/-! ### The fields of a word that a row covers -/

section
variable {w : Word}

theorem covers_iff (r : Row) : r.covers w = true ↔ w &&& r.mask = r.bits := beq_iff_eq

/-- A word as n1 and the 12 bits below. -/
theorem eq_formatA (w : Word) : w = formatA (digit (nibble w 3)) (fieldNNN w) := (formatA_fields rfl).symm

/-- A word as n1, x and kk. -/
theorem eq_formatI (w : Word) : w = formatI (digit (nibble w 3)) (fieldX w) (fieldKK w) := (formatI_fields rfl).symm

/-- A word as its four digits. -/
theorem eq_formatR (w : Word) : w = formatR (digit (nibble w 3)) (fieldX w) (fieldY w) (fieldN w) :=
  (formatR_fields rfl).symm

/-- The mask F000 tests n1. -/
theorem n1_of_covers {n1 : BitVec 4} (h : Row.covers ⟨0xF000#16, formatA n1 0⟩ w = true) :
    (nibble w 3).val = n1.toNat := by
  rw [covers_iff, eq_formatA w, Laws.formatA_and_F000] at h
  have h3 := congrArg (fun u => (nibble u 3).val) h
  simp only [n1_formatA] at h3
  exact h3

/-- The mask F0FF tests n1 and the low byte. -/
theorem n1_kk_of_covers {n1 : BitVec 4} {kk : Byte} (h : Row.covers ⟨0xF0FF#16, formatI n1 0 kk⟩ w = true) :
    (nibble w 3).val = n1.toNat ∧ fieldKK w = kk := by
  rw [covers_iff, eq_formatI w, Laws.formatI_and_F0FF] at h
  have h3 := congrArg (fun u => (nibble u 3).val) h
  have hkk := congrArg fieldKK h
  simp only [n1_formatI, kk_formatI] at h3 hkk
  exact ⟨h3, hkk⟩

/-- The mask F00F tests n1 and the low digit. -/
theorem n1_n_of_covers {n1 : BitVec 4} {n : Fin 16} (h : Row.covers ⟨0xF00F#16, formatR n1 0 0 n⟩ w = true) :
    (nibble w 3).val = n1.toNat ∧ fieldN w = n := by
  rw [covers_iff, eq_formatR w, Laws.formatR_and_F00F] at h
  have h3 := congrArg (fun u => (nibble u 3).val) h
  have hn := congrArg fieldN h
  simp only [n1_formatR, n_formatR] at h3 hn
  exact ⟨h3, hn⟩

end

/-! ### A covered word is the word of an instruction of the row -/

/-- Every word that the row covers is the word of an instruction of that row. -/
def RowDecodes (r : Row) : Prop := ∀ w, r.covers w = true → ∃ i, encode i = w ∧ rowOf i = r

/-- A row that tests the whole word. -/
theorem rowDecodes_whole (i : Instr) (hr : rowOf i = ⟨0xFFFF#16, encode i⟩) : RowDecodes ⟨0xFFFF#16, encode i⟩ :=
  fun _ h => ⟨i, ((covers_iff _).mp h).symm.trans BitVec.and_allOnes, hr⟩

/-- A row of format A. -/
theorem rowDecodes_formatA (n1 : BitVec 4) (f : Addr12 → Instr) (hf : ∀ nnn, encode (f nnn) = formatA n1 nnn)
    (hr : ∀ nnn, rowOf (f nnn) = ⟨0xF000#16, formatA n1 0⟩) : RowDecodes ⟨0xF000#16, formatA n1 0⟩ :=
  fun w h => ⟨f (fieldNNN w), by rw [hf, formatA_fields (n1_of_covers h)], hr _⟩

/-- A row of format I. -/
theorem rowDecodes_formatI (n1 : BitVec 4) (f : Reg → Byte → Instr) (hf : ∀ x kk, encode (f x kk) = formatI n1 x kk)
    (hr : ∀ x kk, rowOf (f x kk) = ⟨0xF000#16, formatA n1 0⟩) : RowDecodes ⟨0xF000#16, formatA n1 0⟩ :=
  fun w h => ⟨f (fieldX w) (fieldKK w), by rw [hf, formatI_fields (n1_of_covers h)], hr _ _⟩

/-- A row of format X. -/
theorem rowDecodes_formatX (n1 : BitVec 4) (kk : Byte) (f : Reg → Instr) (hf : ∀ x, encode (f x) = formatI n1 x kk)
    (hr : ∀ x, rowOf (f x) = ⟨0xF0FF#16, formatI n1 0 kk⟩) : RowDecodes ⟨0xF0FF#16, formatI n1 0 kk⟩ := by
  intro w h
  obtain ⟨h3, hkk⟩ := n1_kk_of_covers h
  exact ⟨f (fieldX w), by rw [hf, formatI_fields_code h3 hkk], hr _⟩

/-- A row of format R. -/
theorem rowDecodes_formatR (n1 : BitVec 4) (n : Fin 16) (f : Reg → Reg → Instr)
    (hf : ∀ x y, encode (f x y) = formatR n1 x y n) (hr : ∀ x y, rowOf (f x y) = ⟨0xF00F#16, formatR n1 0 0 n⟩) :
    RowDecodes ⟨0xF00F#16, formatR n1 0 0 n⟩ := by
  intro w h
  obtain ⟨h3, hn⟩ := n1_n_of_covers h
  exact ⟨f (fieldX w) (fieldY w), by rw [hf, formatR_fields_code h3 hn], hr _ _⟩

/-- The row of format D. -/
theorem rowDecodes_formatD : RowDecodes ⟨0xF000#16, formatA 0xD#4 0⟩ :=
  fun w h => ⟨.drw (fieldX w) (fieldY w) (fieldN w), formatR_fields (n1_of_covers h), rfl⟩

/-- R65's table, row by row. -/
theorem rowDecodes_of_mem : ∀ r ∈ opcodeTable, RowDecodes r := by
  simp only [opcodeTable, List.cons_append, List.nil_append, List.forall_mem_cons]
  exact ⟨rowDecodes_whole .cls rfl,
    rowDecodes_whole .ret rfl,
    rowDecodes_formatA 0x1 .jp (fun _ => rfl) (fun _ => rfl),
    rowDecodes_formatA 0x2 .call (fun _ => rfl) (fun _ => rfl),
    rowDecodes_formatI 0x3 .seImm (fun _ _ => rfl) (fun _ _ => rfl),
    rowDecodes_formatI 0x4 .sneImm (fun _ _ => rfl) (fun _ _ => rfl),
    rowDecodes_formatR 0x5 0x0 .seReg (fun _ _ => rfl) (fun _ _ => rfl),
    rowDecodes_formatI 0x6 .ldImm (fun _ _ => rfl) (fun _ _ => rfl),
    rowDecodes_formatI 0x7 .addImm (fun _ _ => rfl) (fun _ _ => rfl),
    rowDecodes_formatR 0x8 0x0 .ldReg (fun _ _ => rfl) (fun _ _ => rfl),
    rowDecodes_formatR 0x8 0x1 .orReg (fun _ _ => rfl) (fun _ _ => rfl),
    rowDecodes_formatR 0x8 0x2 .andReg (fun _ _ => rfl) (fun _ _ => rfl),
    rowDecodes_formatR 0x8 0x3 .xorReg (fun _ _ => rfl) (fun _ _ => rfl),
    rowDecodes_formatR 0x8 0x4 .addReg (fun _ _ => rfl) (fun _ _ => rfl),
    rowDecodes_formatR 0x8 0x5 .subReg (fun _ _ => rfl) (fun _ _ => rfl),
    rowDecodes_formatR 0x8 0x6 .shr (fun _ _ => rfl) (fun _ _ => rfl),
    rowDecodes_formatR 0x8 0x7 .subnReg (fun _ _ => rfl) (fun _ _ => rfl),
    rowDecodes_formatR 0x8 0xE .shl (fun _ _ => rfl) (fun _ _ => rfl),
    rowDecodes_formatR 0x9 0x0 .sneReg (fun _ _ => rfl) (fun _ _ => rfl),
    rowDecodes_formatA 0xA .ldI (fun _ => rfl) (fun _ => rfl),
    rowDecodes_formatA 0xB .jpV0 (fun _ => rfl) (fun _ => rfl),
    rowDecodes_formatI 0xC .rnd (fun _ _ => rfl) (fun _ _ => rfl),
    rowDecodes_formatD,
    rowDecodes_formatX 0xE 0x9E .skp (fun _ => rfl) (fun _ => rfl),
    rowDecodes_formatX 0xE 0xA1 .sknp (fun _ => rfl) (fun _ => rfl),
    rowDecodes_formatX 0xF 0x07 .ldFromDt (fun _ => rfl) (fun _ => rfl),
    rowDecodes_formatX 0xF 0x0A .ldKey (fun _ => rfl) (fun _ => rfl),
    rowDecodes_formatX 0xF 0x15 .ldToDt (fun _ => rfl) (fun _ => rfl),
    rowDecodes_formatX 0xF 0x18 .ldToSt (fun _ => rfl) (fun _ => rfl),
    rowDecodes_formatX 0xF 0x1E .addI (fun _ => rfl) (fun _ => rfl),
    rowDecodes_formatX 0xF 0x29 .ldGlyph (fun _ => rfl) (fun _ => rfl),
    rowDecodes_formatX 0xF 0x33 .ldBcd (fun _ => rfl) (fun _ => rfl),
    rowDecodes_formatX 0xF 0x55 .storeRegs (fun _ => rfl) (fun _ => rfl),
    rowDecodes_formatX 0xF 0x65 .loadRegs (fun _ => rfl) (fun _ => rfl),
    List.forall_mem_nil _⟩

/-- Settles O3: a decoded word is its instruction's word, which EncodingRow places in its row; a covered word is the
word of an instruction of the row, which O1 decodes. -/
theorem decoderAgreesWithMaskTable : Obligations.DecoderAgreesWithMaskTable := by
  intro w
  have hrow : ∀ i, decode w = .instr i → rowOf i ∈ opcodeTable ∧ (rowOf i).covers w = true := by
    intro i hi
    obtain ⟨hcovers, hmem⟩ := encodingRow i
    exact ⟨hmem, decode_eq_instr.mp hi ▸ hcovers⟩
  have hcovered : ∀ r ∈ opcodeTable, r.covers w = true → ∃ i, decode w = .instr i ∧ rowOf i = r := by
    intro r hr hc
    obtain ⟨i, hi, hri⟩ := rowDecodes_of_mem r hr w hc
    exact ⟨i, decode_eq_instr.mpr hi, hri⟩
  refine ⟨hrow, hcovered, fun hu r hr => ?_, fun hnone => ?_⟩
  · rw [Bool.eq_false_iff]
    intro hc
    obtain ⟨i, hi, -⟩ := hcovered r hr hc
    exact absurd (hi.symm.trans hu) (by simp)
  · rcases decode_ok w with ⟨i, hi, -⟩ | ⟨hu, -⟩
    · obtain ⟨hmem, hcovers⟩ := hrow i hi
      exact absurd hcovers (by simp [hnone _ hmem])
    · exact hu

/-! ### The assembler on a disassembled line -/

theorem asmReg_val (x : Reg) : asmReg x.val = .ok x := dif_pos x.isLt

theorem asmHeight_val (n : Fin 16) : asmHeight n.val = .ok n := dif_pos n.isLt

theorem asmNum_toNat {w : Nat} (n : BitVec w) : asmNum w n.toNat = .ok n := by
  rw [asmNum, if_pos n.isLt, BitVec.ofNat_toNat, BitVec.setWidth_eq]

theorem asmX_val (f : Reg → Instr) (x : Reg) : asmX f x.val = .ok (f x) := by
  rw [asmX, asmReg_val]; rfl

theorem asmXY_val (f : Reg → Reg → Instr) (x y : Reg) : asmXY f x.val y.val = .ok (f x y) := by
  rw [asmXY, asmReg_val, asmReg_val]; rfl

theorem asmXK_val (f : Reg → Byte → Instr) (x : Reg) (kk : Byte) : asmXK f x.val kk.toNat = .ok (f x kk) := by
  rw [asmXK, asmReg_val, asmNum_toNat]; rfl

theorem asmN_toNat (f : Addr12 → Instr) (n : Addr12) : asmN f n.toNat = .ok (f n) := by
  rw [asmN, asmNum_toNat]; rfl

theorem assembleInstr_drw (x y n : Fin 16) :
    assembleInstr .drw [.v x.val, .v y.val, .num n.val] = .ok (.drw x y n) := by
  rw [assembleInstr, asmReg_val, asmReg_val, asmHeight_val]; rfl

/-- A line that names an instruction assembles to the bytes of its word. -/
theorem assemble_instr {m : Mnemonic} {ops : List AsmOperand} {i : Instr} (h : assembleInstr m ops = .ok i) :
    assemble (.instr m ops) = .ok (bytesOfWord (encode i)) := by
  rw [assemble, h]; rfl

/-- Settles O6: the line of every form names the instruction again, shape by shape of its operands; that of a shift
names the shift with y = 0. -/
theorem assembleOfDisassemble : Obligations.AssembleOfDisassemble := by
  refine ⟨fun i hi => ?_, fun x y => ⟨assemble_instr (asmX_val _ x), assemble_instr (asmX_val _ x)⟩⟩
  cases i
  case shr x y => exact absurd rfl (hi x y).1
  case shl x y => exact absurd rfl (hi x y).2
  case cls | ret => rfl
  case jp nnn | call nnn | ldI nnn | jpV0 nnn => exact assemble_instr (asmN_toNat _ nnn)
  case seImm x kk | sneImm x kk | ldImm x kk | addImm x kk | rnd x kk => exact assemble_instr (asmXK_val _ x kk)
  case seReg x y | sneReg x y | ldReg x y | orReg x y | andReg x y | xorReg x y | addReg x y | subReg x y
      | subnReg x y => exact assemble_instr (asmXY_val _ x y)
  case drw x y n => exact assemble_instr (assembleInstr_drw x y n)
  all_goals
    rename_i x
    exact assemble_instr (asmX_val _ x)

end Sys2Proof.Proofs
end

section
/-! PROOFS. What an instruction can do to the state, said once for all 34 forms, and what follows: who writes what
(spec/10_state.md section 7), and that every instruction answers. -/

namespace Sys2Proof.Proofs

open Machine Claims

theorem exec_rnd (x : Reg) (kk : Byte) (s : State) :
    exec (.rnd x kk) s = .next (setV x ((drawByte s).1 &&& kk) (drawByte s).2) := rfl

/-! ### Kinds of instruction -/

/-- The instruction writes Vr with a value it computes, and no other register. -/
def LoadsReg (r : Reg) (i : Instr) : Prop :=
  (∃ kk, i = .ldImm r kk ∨ i = .addImm r kk) ∨
  (∃ y, i = .ldReg r y ∨ i = .orReg r y ∨ i = .andReg r y ∨ i = .xorReg r y) ∨ i = .ldFromDt r ∨ i = .ldKey r

/-- The instruction writes a result to Vx and a flag to VF. -/
def SetsFlag (x : Reg) (i : Instr) : Prop :=
  ∃ y, i = .addReg x y ∨ i = .subReg x y ∨ i = .subnReg x y ∨ i = .shr x y ∨ i = .shl x y

/-- The instruction writes PC and nothing else. -/
def SetsPc (i : Instr) : Prop :=
  (∃ nnn, i = .jp nnn ∨ i = .jpV0 nnn) ∨ (∃ x kk, i = .seImm x kk ∨ i = .sneImm x kk) ∨
  (∃ x y, i = .seReg x y ∨ i = .sneReg x y) ∨ ∃ x, i = .skp x ∨ i = .sknp x ∨ i = .ldKey x

/-- The instruction writes I. -/
def SetsI (i : Instr) : Prop := (∃ nnn, i = .ldI nnn) ∨ ∃ x, i = .addI x ∨ i = .ldGlyph x

/-- The instruction has a test that can fail (R165 to R170). -/
def CanFault (i : Instr) : Prop :=
  i = .ret ∨ (∃ nnn, i = .call nnn) ∨ (∃ x y n, i = .drw x y n) ∨
  ∃ x, i = .ldBcd x ∨ i = .storeRegs x ∨ i = .loadRegs x ∨ i = .skp x ∨ i = .sknp x

/-- Where a write of PC alone can lead: an address and a byte's offset from it, past the next instruction, or back (R13,
R81, R152). -/
def PcTarget (s : State) (a : Word) : Prop := a.toNat ≤ 4350 ∨ a = s.pc ∨ a = s.pc + 2 ∨ a = s.pc - 2

/-- Everything an instruction that answers can have done, by what it writes. -/
inductive Effect (s : State) : Instr → State → Prop
  | fault {i : Instr} (k : Fault) (hk : k ≠ .capacityError) (hi : CanFault i) (hs : ¬ execSafe i s) :
      Effect s i (latch k s)
  | load {i : Instr} {r : Reg} (b : Byte) (hi : LoadsReg r i) : Effect s i (setV r b s)
  | result {i : Instr} {x : Reg} (r r' : Reg) (b b' : Byte) (hi : SetsFlag x i)
      (hr : r = x ∧ r' = vf ∨ r = vf ∧ r' = x) : Effect s i (setV r' b' (setV r b s))
  | random {x : Reg} {kk : Byte} (b : Byte) : Effect s (.rnd x kk) (setV x b (drawByte s).2)
  | jump {i : Instr} (a : Word) (ha : PcTarget s a) (hi : SetsPc i) : Effect s i (jump a s)
  | ret (h : 0 < s.sp.val) : Effect s .ret { s with
      pc := s.stack[s.sp.val - 1]'(by have := s.sp.isLt; omega), sp := ⟨s.sp.val - 1, by omega⟩ }
  | call {nnn : Addr12} (h : s.sp.val < 16) : Effect s (.call nnn) { s with
      pc := zext12 nnn, stack := s.stack.set s.sp.val s.pc h, sp := ⟨s.sp.val + 1, by omega⟩ }
  | clear : Effect s .cls { s with disp := blankDisplay }
  | draw {x y n : Fin 16} (d : Display) (b : Byte) : Effect s (.drw x y n) (setV vf b { s with disp := d })
  | index {i : Instr} (a : Word) (hi : SetsI i) : Effect s i (setI a s)
  | store {i : Instr} (bs : List Byte) (h : ea s 0 + bs.length ≤ 4096) (hi : ∃ x, i = .ldBcd x ∨ i = .storeRegs x) :
      Effect s i { s with mem := s.mem.writeBytes (ea s 0) bs }
  | block {x : Reg} : Effect s (.loadRegs x) (loadBlock s x)
  | delay {x : Reg} : Effect s (.ldToDt x) { s with dt := getV s x }
  | sound {x : Reg} : Effect s (.ldToSt x) { s with st := getV s x }

/-! ### Every meaning has its effect -/

section
variable {i : Instr} {s t u : State}

/-- The effect of an answer that is known. -/
theorem effect_of_eq (h : exec i s = .next t) (hu : exec i s = .next u) (he : Effect s i u) : Effect s i t := by
  rw [hu, Host.Outcome.next.injEq] at h
  exact h ▸ he

theorem effect_load {r : Reg} {b : Byte} (hi : LoadsReg r i) (hu : exec i s = .next (setV r b s))
    (h : exec i s = .next t) : Effect s i t := effect_of_eq h hu (.load b hi)

theorem effect_resultThenFlag {x : Reg} {b f : Byte} (hi : SetsFlag x i)
    (hu : exec i s = .next (resultThenFlag x b f s)) (h : exec i s = .next t) : Effect s i t :=
  effect_of_eq h hu (.result x vf b f hi (.inl ⟨rfl, rfl⟩))

theorem effect_flagThenResult {x : Reg} {b f : Byte} (hi : SetsFlag x i)
    (hu : exec i s = .next (flagThenResult x b f s)) (h : exec i s = .next t) : Effect s i t :=
  effect_of_eq h hu (.result vf x f b hi (.inr ⟨rfl, rfl⟩))

theorem effect_jump {a : Word} (hi : SetsPc i) (ha : PcTarget s a) (hu : exec i s = .next (jump a s))
    (h : exec i s = .next t) : Effect s i t := effect_of_eq h hu (.jump a ha hi)

/-- A skip leads past the next instruction, or to it. -/
theorem effect_skipIf (c : Bool) (hi : SetsPc i) : Effect s i (skipIf c s) := by
  rw [skipIf_eq_jump]
  refine .jump _ ?_ hi
  cases c
  · exact .inr (.inl rfl)
  · exact .inr (.inr (.inl rfl))

/-- A key skip is a skip, or has failed its test. -/
theorem effect_skipOnKey {x : Reg} {down : Bool} (hi : i = .skp x ∨ i = .sknp x) (h : skipOnKey x down s = .next t) :
    Effect s i t := by
  rcases skipOnKey_next.mp h with ⟨-, rfl⟩ | ⟨hx, rfl⟩
  · exact effect_skipIf _ (.inr (.inr (.inr ⟨x, by rcases hi with rfl | rfl <;> simp⟩)))
  · refine .fault _ (by simp) ?_ ?_
    · exact .inr (.inr (.inr ⟨x, by rcases hi with rfl | rfl <;> simp⟩))
    · rcases hi with rfl | rfl <;> simpa [execSafe] using hx

/-- A store at I writes its bytes, or has failed its test. -/
theorem effect_storeAtI {bs : List Byte} (hi : ∃ x, i = .ldBcd x ∨ i = .storeRegs x)
    (hs : 4096 < ea s 0 + bs.length → ¬ execSafe i s) (h : storeAtI bs s = .next t) : Effect s i t := by
  rcases storeAtI_next.mp h with ⟨hspan, rfl⟩ | ⟨hspan, rfl⟩
  · exact .store bs hspan hi
  · refine .fault _ (by simp) ?_ (hs hspan)
    obtain ⟨x, hx⟩ := hi
    exact .inr (.inr (.inr ⟨x, by tauto⟩))

end

/-- The inversion of `exec`, over all 34 forms. -/
theorem exec_effect {i : Instr} {s t : State} (h : exec i s = .next t) : Effect s i t := by
  cases i
  case cls => exact effect_of_eq h (exec_cls s) .clear
  case ret =>
    rcases execRet_next.mp h with ⟨hsp, rfl⟩ | ⟨hsp, rfl⟩
    · exact .ret hsp
    · exact .fault _ (by simp) (.inl rfl) (by simp [execSafe, hsp])
  case call nnn =>
    rcases execCall_next.mp h with ⟨hsp, rfl⟩ | ⟨hsp, rfl⟩
    · exact .call hsp
    · exact .fault _ (by simp) (.inr (.inl ⟨nnn, rfl⟩)) (by simp [execSafe, hsp])
  case jp nnn =>
    exact effect_jump (.inl ⟨nnn, .inl rfl⟩) (.inl (by rw [zext12_toNat]; omega)) (exec_jp nnn s) h
  case jpV0 nnn =>
    exact effect_jump (.inl ⟨nnn, .inr rfl⟩) (.inl (by rw [zext12_add_zext8_toNat]; omega)) (exec_jpV0 nnn s) h
  case seImm x kk => exact effect_of_eq h (exec_seImm x kk s) (effect_skipIf _ (.inr (.inl ⟨x, kk, .inl rfl⟩)))
  case sneImm x kk => exact effect_of_eq h (exec_sneImm x kk s) (effect_skipIf _ (.inr (.inl ⟨x, kk, .inr rfl⟩)))
  case seReg x y => exact effect_of_eq h (exec_seReg x y s) (effect_skipIf _ (.inr (.inr (.inl ⟨x, y, .inl rfl⟩))))
  case sneReg x y => exact effect_of_eq h (exec_sneReg x y s) (effect_skipIf _ (.inr (.inr (.inl ⟨x, y, .inr rfl⟩))))
  case ldImm x kk => exact effect_load (.inl ⟨kk, .inl rfl⟩) (exec_ldImm x kk s) h
  case addImm x kk => exact effect_load (.inl ⟨kk, .inr rfl⟩) (exec_addImm x kk s) h
  case ldReg x y => exact effect_load (.inr (.inl ⟨y, by simp⟩)) (exec_ldReg x y s) h
  case orReg x y => exact effect_load (.inr (.inl ⟨y, by simp⟩)) (exec_orReg x y s) h
  case andReg x y => exact effect_load (.inr (.inl ⟨y, by simp⟩)) (exec_andReg x y s) h
  case xorReg x y => exact effect_load (.inr (.inl ⟨y, by simp⟩)) (exec_xorReg x y s) h
  case ldFromDt x => exact effect_load (.inr (.inr (.inl rfl))) (exec_ldFromDt x s) h
  case ldKey x =>
    rcases execLdKey_next.mp h with ⟨k, -, rfl⟩ | ⟨-, rfl⟩
    · exact .load _ (.inr (.inr (.inr rfl)))
    · exact .jump (s.pc - 2) (.inr (.inr (.inr rfl))) (.inr (.inr (.inr ⟨x, by simp⟩)))
  case addReg x y => exact effect_resultThenFlag ⟨y, by simp⟩ (exec_addReg x y s) h
  case subReg x y => exact effect_resultThenFlag ⟨y, by simp⟩ (exec_subReg x y s) h
  case subnReg x y => exact effect_resultThenFlag ⟨y, by simp⟩ (exec_subnReg x y s) h
  case shr x y => exact effect_flagThenResult ⟨y, by simp⟩ (exec_shr x y s) h
  case shl x y => exact effect_flagThenResult ⟨y, by simp⟩ (exec_shl x y s) h
  case rnd x kk => exact effect_of_eq h (exec_rnd x kk s) (.random _)
  case ldI nnn => exact effect_of_eq h (exec_ldI nnn s) (.index _ (.inl ⟨nnn, rfl⟩))
  case addI x => exact effect_of_eq h (exec_addI x s) (.index _ (.inr ⟨x, .inl rfl⟩))
  case ldGlyph x => exact effect_of_eq h (exec_ldGlyph x s) (.index _ (.inr ⟨x, .inr rfl⟩))
  case ldToDt x => exact effect_of_eq h (exec_ldToDt x s) .delay
  case ldToSt x => exact effect_of_eq h (exec_ldToSt x s) .sound
  case drw x y n =>
    rcases execDrw_next.mp h with ⟨-, r, -, rfl⟩ | ⟨hspan, rfl⟩
    · exact .draw _ _
    · exact .fault _ (by simp) (.inr (.inr (.inl ⟨x, y, n, rfl⟩))) (by simpa [execSafe, ea] using hspan)
  case skp x => exact effect_skipOnKey (.inl rfl) h
  case sknp x => exact effect_skipOnKey (.inr rfl) h
  case ldBcd x =>
    exact effect_storeAtI (bs := bcdDigits (getV s x)) ⟨x, .inl rfl⟩ (fun hspan => Nat.not_le.mpr hspan) h
  case storeRegs x =>
    exact effect_storeAtI ⟨x, .inr rfl⟩ (fun hspan => by simpa [execSafe, ea, Nat.add_assoc] using hspan) h
  case loadRegs x =>
    rcases execLoadRegs_next.mp h with ⟨-, rfl⟩ | ⟨hspan, rfl⟩
    · exact .block
    · exact .fault _ (by simp) (.inr (.inr (.inr ⟨x, by simp⟩))) (by simpa [execSafe, ea, Nat.add_assoc] using hspan)

/-! ### Who writes what -/

/-- A register is the instruction's destination, in its loaded block, or VF of a flag writer. -/
def WritesRegister (r : Reg) (i : Instr) : Prop :=
  (∃ kk, i = .ldImm r kk ∨ i = .addImm r kk ∨ i = .rnd r kk) ∨
  (∃ y, i = .ldReg r y ∨ i = .orReg r y ∨ i = .andReg r y ∨ i = .xorReg r y) ∨
  (∃ x y, (r = x ∨ r = vf) ∧
    (i = .addReg x y ∨ i = .subReg x y ∨ i = .subnReg x y ∨ i = .shr x y ∨ i = .shl x y)) ∨
  (r = vf ∧ ∃ x y n, i = .drw x y n) ∨
  i = .ldFromDt r ∨ i = .ldKey r ∨ ∃ x, r ≤ x ∧ i = .loadRegs x

theorem writesRegister_of_loadsReg {r : Reg} {i : Instr} (h : LoadsReg r i) : WritesRegister r i := by
  obtain ⟨kk, h⟩ | ⟨y, h⟩ | h | h := h
  · exact .inl ⟨kk, by tauto⟩
  · exact .inr (.inl ⟨y, h⟩)
  · exact .inr (.inr (.inr (.inr (.inl h))))
  · exact .inr (.inr (.inr (.inr (.inr (.inl h)))))

theorem writesRegister_of_setsFlag {r x : Reg} {i : Instr} (h : SetsFlag x i) (hr : r = x ∨ r = vf) :
    WritesRegister r i := by
  obtain ⟨y, h⟩ := h
  exact .inr (.inr (.inl ⟨x, y, hr, h⟩))

section
variable {i : Instr} {s t : State}

/-- A register that changes is one the instruction writes. -/
theorem writesRegister_of_getV_ne (he : Effect s i t) {r : Reg} (hr : getV t r ≠ getV s r) : WritesRegister r i := by
  cases he
  case load q b hi =>
    by_cases h : r = q
    · exact h ▸ writesRegister_of_loadsReg hi
    · exact absurd (getV_setV_of_ne h b s) hr
  case result x q q' b b' hq hi =>
    refine writesRegister_of_setsFlag hi (by_contra fun h => hr ?_)
    rw [not_or] at h
    have hx : r ≠ q ∧ r ≠ q' := by rcases hq with ⟨rfl, rfl⟩ | ⟨rfl, rfl⟩ <;> tauto
    rw [getV_setV_of_ne hx.2, getV_setV_of_ne hx.1]
  case random x kk b =>
    by_cases h : r = x
    · exact .inl ⟨kk, by simp [h]⟩
    · exact absurd ((getV_setV_of_ne h b _).trans (getV_drawByte s r)) hr
  case draw x y n d b =>
    by_cases h : r = vf
    · exact .inr (.inr (.inr (.inl ⟨h, x, y, n, rfl⟩)))
    · exact absurd (getV_setV_of_ne h b _) hr
  case block x =>
    by_cases h : r ≤ x
    · exact .inr (.inr (.inr (.inr (.inr (.inr ⟨x, h, rfl⟩)))))
    · exact absurd ((getV_loadBlock s x r).trans (if_neg h)) hr
  all_goals exact absurd rfl hr

/-- PC changes only by the control transfers, the skips and the key wait. -/
theorem setsPc_of_pc_ne (he : Effect s i t) (hpc : t.pc ≠ s.pc) : i = .ret ∨ (∃ nnn, i = .call nnn) ∨ SetsPc i := by
  cases he
  case jump a ha hi => exact .inr (.inr hi)
  case ret => exact .inl rfl
  case call nnn _ => exact .inr (.inl ⟨nnn, rfl⟩)
  all_goals simp at hpc

/-- HALT and FAULT change only by the instructions with a test. -/
theorem canFault_of_latch_ne (he : Effect s i t) (hl : t.halt ≠ s.halt ∨ t.fault ≠ s.fault) : CanFault i := by
  cases he
  case fault k hk hi hs => exact hi
  all_goals simp at hl

theorem mem_of_effect (he : Effect s i t) :
    t.mem = s.mem ∨ ∃ bs, ea s 0 + bs.length ≤ 4096 ∧ t.mem = s.mem.writeBytes (ea s 0) bs := by
  cases he
  case store bs hspan hi => exact .inr ⟨bs, hspan, rfl⟩
  all_goals simp

end

/-- Settles O16: store by store, every effect but those of the instructions listed leaves it. -/
theorem stateIsWrittenOnlyBy : Obligations.StateIsWrittenOnlyBy := by
  intro i s t h
  have he := exec_effect h
  refine ⟨?keys, ?event, ?dt, ?st, ?disp, ?stack, ?sp, ?mem, ?index, ?random,
    fun r hr => writesRegister_of_getV_ne he hr, fun hpc => ?pc, canFault_of_latch_ne he⟩
  case keys | event | dt | st | disp | stack | sp | random => cases he <;> simp
  case mem =>
    cases he
    case store bs hspan hi => exact fun _ => hi
    all_goals simp
  case index =>
    cases he
    case index a hi => exact fun _ => hi
    all_goals simp
  case pc =>
    obtain hret | ⟨nnn, hcall⟩ | ⟨nnn, hjp⟩ | hskip := setsPc_of_pc_ne he hpc
    · exact .inl hret
    · exact .inr (.inl ⟨nnn, .inr (.inl hcall)⟩)
    · exact .inr (.inl ⟨nnn, by tauto⟩)
    · exact .inr (.inr hskip)

/-- Settles O17: O16 at VF. -/
theorem onlySixInstructionsWriteVfAsAFlag : Obligations.OnlySixInstructionsWriteVfAsAFlag := by
  intro i s t h hvf
  obtain ⟨kk, hi⟩ | ⟨y, hi⟩ | ⟨x, y, -, hi⟩ | ⟨-, hi⟩ | hi | hi | ⟨x, hx, hi⟩ :=
    writesRegister_of_getV_ne (exec_effect h) hvf
  · exact .inr (.inr (.inl ⟨kk, hi⟩))
  · exact .inr (.inr (.inr (.inl ⟨y, hi⟩)))
  · exact .inl ⟨x, y, hi⟩
  · exact .inr (.inl hi)
  · exact .inr (.inr (.inr (.inr (.inl hi))))
  · exact .inr (.inr (.inr (.inr (.inr (.inl hi)))))
  · have : x = vf := le_antisymm (Fin.le_last x) hx
    exact .inr (.inr (.inr (.inr (.inr (.inr (this ▸ hi))))))

end Sys2Proof.Proofs
end

section
/-! PROOFS. The step and its faults (spec/30_encoding.md R64, spec/60_exceptions.md): what STEP does, when an
instruction faults and what it latches, and that a fault changes nothing else. -/

namespace Sys2Proof.Proofs

open Machine Claims

/-! ### The four cases of a step -/

theorem step_of_halted {s : State} (h : s.halt = true) : step s = .refused .halted := if_pos h

theorem step_of_fetchWord_eq_none {s : State} (h : s.halt = false) (hf : fetchWord s = none) :
    step s = .next (latch .addressOutOfRange (clearEvent s)) := by
  simp [step, h, hf, fetchFault, raise]

theorem step_of_fetchWord_eq_some {s : State} {w : Word} (h : s.halt = false) (hf : fetchWord s = some w) :
    step s = runWord w s := by
  simp [step, h, hf]

theorem runWord_of_instr {w : Word} {i : Instr} (h : decode w = .instr i) (s : State) :
    runWord w s = exec i (afterFetch s) := by
  simp [runWord, h]

theorem runWord_of_unknown {w u : Word} (h : decode w = .unknown u) (s : State) :
    runWord w s = .next (reportUnknown u (afterFetch s)) := by
  simp [runWord, h]

theorem fetchWord_of_fetchesWord {s : State} {w : Word} (h : FetchesWord s w) : fetchWord s = some w :=
  fetchWord_eq_some.mpr h.2

/-- A step on the word of an instruction. -/
theorem step_of_instr {s : State} {w : Word} {i : Instr} (h : FetchesWord s w) (hd : decode w = .instr i) :
    step s = exec i (afterFetch s) := by
  rw [step_of_fetchWord_eq_some h.1 (fetchWord_of_fetchesWord h), runWord_of_instr hd]

/-- A step on a word that is no instruction. -/
theorem step_of_unknown {s : State} {w : Word} (h : FetchesWord s w) (hd : decode w = .unknown w) :
    step s = .next (reportUnknown w (afterFetch s)) := by
  rw [step_of_fetchWord_eq_some h.1 (fetchWord_of_fetchesWord h), runWord_of_unknown hd]

/-- Settles O7: the four cases of a step. -/
theorem stepRunsDecodedInstruction : Obligations.StepRunsDecodedInstruction :=
  ⟨fun _ _ _ => step_of_instr, fun _ _ => step_of_unknown,
    fun _ h hpc => step_of_fetchWord_eq_none h (fetchWord_eq_none.mpr hpc), fun _ => step_of_halted⟩

/-- Settles O8: `wordOfBytes_toNat`, and the fields as digits of that number. -/
theorem fetchIsBigEndian : Obligations.FetchIsBigEndian := by
  intro s w h
  obtain ⟨-, rfl⟩ := fetchWord_eq_some.mp h
  have hlo := (s.mem.read (s.pc.toNat + 1)).isLt
  have hhi := (s.mem.read s.pc.toNat).isLt
  refine ⟨?_, ?_, BitVec.eq_of_toNat_eq ?_⟩
  · rw [wordOfBytes_toNat]; omega
  · rw [nibble_val, nibble_val, wordOfBytes_toNat]; omega
  · rw [fieldKK_toNat, wordOfBytes_toNat]; omega

/-! ### What a failed test latches -/

/-- Settles O12: the failing half of each inversion lemma. -/
theorem trapsLatchTheirKind : Obligations.TrapsLatchTheirKind := by
  refine ⟨fun s h => ?_, fun s nnn h => ?_, fun s x y n h => ?_, fun s x h => ?_, fun s x h => ⟨?_, ?_⟩,
    fun s x h => ⟨?_, ?_⟩⟩
  · exact execRet_next.mpr (.inr ⟨h, rfl⟩)
  · exact execCall_next.mpr (.inr ⟨h, rfl⟩)
  · exact execDrw_next.mpr (.inr ⟨h, rfl⟩)
  · exact storeAtI_next.mpr (.inr ⟨h, rfl⟩)
  · exact storeAtI_next.mpr (.inr ⟨by rw [length_regBlock]; exact h, rfl⟩)
  · exact execLoadRegs_next.mpr (.inr ⟨h, rfl⟩)
  · exact skipOnKey_next.mpr (.inr ⟨h, rfl⟩)
  · exact skipOnKey_next.mpr (.inr ⟨h, rfl⟩)

/-- An instruction whose test fails latches a fault and does nothing else. -/
theorem exec_of_not_execSafe {i : Instr} {s : State} (h : ¬ execSafe i s) : ∃ k, exec i s = .next (latch k s) := by
  obtain ⟨hret, hcall, hdrw, hbcd, hblock, hkey⟩ := trapsLatchTheirKind
  cases i
  case ret => exact ⟨_, hret s (Nat.eq_zero_of_not_pos h)⟩
  case call nnn => exact ⟨_, hcall s nnn (by have := s.sp.isLt; simp only [execSafe] at h; omega)⟩
  case drw x y n => exact ⟨_, hdrw s x y n (Nat.not_le.mp h)⟩
  case ldBcd x => exact ⟨_, hbcd s x (Nat.not_le.mp h)⟩
  case storeRegs x => exact ⟨_, (hblock s x (Nat.not_le.mp h)).1⟩
  case loadRegs x => exact ⟨_, (hblock s x (Nat.not_le.mp h)).2⟩
  case skp x => exact ⟨_, (hkey s x (Nat.not_le.mp h)).1⟩
  case sknp x => exact ⟨_, (hkey s x (Nat.not_le.mp h)).2⟩
  all_goals exact absurd trivial h

/-- An instruction either latches a fault, never CapacityError, or leaves HALT and FAULT. -/
theorem latch_or_same_of_effect {i : Instr} {s t : State} (he : Effect s i t) :
    (∃ k, k ≠ .capacityError ∧ ¬ execSafe i s ∧ t = latch k s) ∨ (t.halt = s.halt ∧ t.fault = s.fault) := by
  cases he
  case fault k hk hi hs => exact .inl ⟨k, hk, hs, rfl⟩
  all_goals exact .inr (by simp)

/-- In a running machine, an instruction leaves the core running exactly when its test passes. -/
theorem halt_eq_false_iff_execSafe {i : Instr} {s t : State} (hs : s.halt = false) (h : exec i s = .next t) :
    t.halt = false ↔ execSafe i s := by
  refine ⟨fun ht => by_contra fun hsafe => ?_, fun hsafe => ?_⟩
  · obtain ⟨k, hk⟩ := exec_of_not_execSafe hsafe
    rw [hk, Host.Outcome.next.injEq] at h
    simp [← h] at ht
  · rcases latch_or_same_of_effect (exec_effect h) with ⟨k, -, hunsafe, -⟩ | ⟨hhalt, -⟩
    · exact absurd hsafe hunsafe
    · rw [hhalt, hs]

/-! ### Every instruction answers -/

theorem orRaise_answers (k : Fault) (s : State) (o : Option State) : ∃ t, orRaise k s o = .next t := by
  cases o
  · exact ⟨_, rfl⟩
  · exact ⟨_, rfl⟩

theorem storeAtI_answers (bs : List Byte) (s : State) : ∃ t, storeAtI bs s = .next t := by
  by_cases h : ea s 0 + bs.length ≤ 4096
  · exact ⟨_, storeAtI_next.mpr (.inl ⟨h, rfl⟩)⟩
  · exact ⟨_, storeAtI_next.mpr (.inr ⟨Nat.not_le.mp h, rfl⟩)⟩

/-- Every instruction answers a next state. -/
theorem exec_answers (i : Instr) (s : State) : ∃ t, exec i s = .next t := by
  cases i
  case ret | call | skp | sknp => exact orRaise_answers _ _ _
  case ldBcd | storeRegs => exact storeAtI_answers _ _
  case drw x y n =>
    by_cases h : ea s 0 + n.val ≤ 4096
    · exact ⟨_, execDrw_next.mpr (.inl ⟨h, _, rfl, rfl⟩)⟩
    · exact ⟨_, execDrw_next.mpr (.inr ⟨Nat.not_le.mp h, rfl⟩)⟩
  case loadRegs x =>
    by_cases h : ea s 0 + (x.val + 1) ≤ 4096
    · exact ⟨_, execLoadRegs_next.mpr (.inl ⟨h, rfl⟩)⟩
    · exact ⟨_, execLoadRegs_next.mpr (.inr ⟨Nat.not_le.mp h, rfl⟩)⟩
  case ldKey x =>
    cases hk : lowestKey s.keys
    · exact ⟨_, exec_ldKey_of_lowestKey_eq_none hk x⟩
    · exact ⟨_, exec_ldKey_of_lowestKey_eq_some hk x⟩
  all_goals exact ⟨_, rfl⟩

/-- A running machine's step answers a next state. -/
theorem step_answers {s : State} (h : s.halt = false) : ∃ t, step s = .next t := by
  cases hf : fetchWord s with
  | none => exact ⟨_, step_of_fetchWord_eq_none h hf⟩
  | some w =>
    rw [step_of_fetchWord_eq_some h hf]
    cases hd : decode w with
    | instr i => exact runWord_of_instr hd s ▸ exec_answers i _
    | unknown u => exact ⟨_, runWord_of_unknown hd s⟩

/-- Settles O9: exactly the halted machine refuses. -/
theorem everyInstructionAnswersNext : Obligations.EveryInstructionAnswersNext := by
  refine ⟨exec_answers, fun s => ⟨fun ⟨_, ht⟩ => (step_next ht).1, step_answers⟩, fun s k hk => ?_⟩
  cases hh : s.halt
  · obtain ⟨t, ht⟩ := step_answers hh
    simp [ht] at hk
  · simp [step_of_halted hh] at hk

/-! ### Faults are precise, and exactly those of unsafe steps -/

/-- Settles O10: of the outcomes of a step (`step_next`), the two that halt the core are latches. -/
theorem faultsArePrecise : Obligations.FaultsArePrecise := by
  intro s t hs h ht
  obtain ⟨-, ⟨hf, rfl⟩ | ⟨w, u, -, -, rfl⟩ | ⟨w, i, hf, -, he⟩⟩ := step_next h
  · have hpc : ¬ s.pc.toNat + 1 ≤ 4095 := Nat.not_le.mpr (fetchWord_eq_none.mp hf)
    exact ⟨.addressOutOfRange, by simp, by rw [if_neg hpc]; rfl⟩
  · simp [hs] at ht
  · have hpc := (fetchWord_eq_some.mp hf).1
    rcases latch_or_same_of_effect (exec_effect he) with ⟨k, hk, -, rfl⟩ | ⟨hhalt, -⟩
    · exact ⟨k, hk, by rw [if_pos hpc]; rfl⟩
    · simp [hhalt, hs] at ht

/-- The tests of `execSafe` read nothing that the fetch writes. -/
theorem execSafe_afterFetch (i : Instr) (s : State) : execSafe i (afterFetch s) ↔ execSafe i s := by
  cases i <;> rfl

/-- Settles O11: outcome by outcome of the step. -/
theorem stepFaultsExactlyWhenUnsafe : Obligations.StepFaultsExactlyWhenUnsafe := by
  intro s t hs h
  unfold stepSafe
  obtain ⟨-, ⟨hf, rfl⟩ | ⟨w, u, hf, hd, rfl⟩ | ⟨w, i, hf, hd, he⟩⟩ := step_next h
  · have hpc := fetchWord_eq_none.mp hf
    exact ⟨fun ht => by simp at ht, fun hsafe => by omega⟩
  · obtain ⟨hpc, rfl⟩ := fetchWord_eq_some.mp hf
    refine iff_of_true (by simpa using hs) ⟨by omega, fun i hi => ?_⟩
    simp [hi] at hd
  · obtain ⟨hpc, rfl⟩ := fetchWord_eq_some.mp hf
    rw [halt_eq_false_iff_execSafe (by simpa using hs) he, execSafe_afterFetch]
    refine ⟨fun hsafe => ⟨by omega, fun j hj => ?_⟩, fun hsafe => hsafe.2 i hd⟩
    rw [hd, Decoded.instr.injEq] at hj
    exact hj ▸ hsafe

/-! ### The invariant -/

/-- A block write keeps the canonical form of memory, whichever instruction makes it. -/
theorem memory_wf_of_effect {i : Instr} {s t : State} (he : Effect s i t) (hs : s.mem.wf) : t.mem.wf := by
  rcases mem_of_effect he with hm | ⟨bs, hspan, hm⟩
  · exact hm ▸ hs
  · exact hm ▸ Memory.writeBytes_wf bs _ _ hspan hs

/-- The stack slots stay at most 4096 when the post-fetch PC, the only value pushed, is. -/
theorem slots_le_of_effect {i : Instr} {s t : State} (he : Effect s i t) (hpc : s.pc.toNat ≤ 4096)
    (hs : ∀ k : Fin 16, (s.stack[k]).toNat ≤ 4096) (k : Fin 16) : (t.stack[k]).toNat ≤ 4096 := by
  cases he
  case call nnn hsp =>
    simp only [Fin.getElem_fin, Vector.getElem_set]
    split
    · exact hpc
    · exact hs k
  all_goals simpa using hs k

/-- From a post-fetch PC, an instruction leads to an address of at most 4350 (R13). -/
theorem pc_le_of_effect {i : Instr} {s t : State} (he : Effect s i t) (h2 : 2 ≤ s.pc.toNat) (hpc : s.pc.toNat ≤ 4096)
    (hs : ∀ k : Fin 16, (s.stack[k]).toNat ≤ 4096) : t.pc.toNat ≤ 4350 := by
  cases he
  case jump a ha hi =>
    rcases ha with ha | rfl | rfl | rfl
    · exact ha
    · exact hpc.trans (by decide)
    · rw [jump_pc, BitVec.toNat_add, show (2 : Word).toNat = 2 from rfl]; omega
    · rw [jump_pc, BitVec.toNat_sub, show (2 : Word).toNat = 2 from rfl]; omega
  case ret hsp => exact (hs ⟨s.sp.val - 1, by omega⟩).trans (by decide)
  case call nnn hsp => simp only [zext12_toNat]; omega
  all_goals simp; omega

/-- HALT and FAULT stay together. -/
theorem latched_of_effect {i : Instr} {s t : State} (he : Effect s i t) (hs : s.halt = s.fault.isSome) :
    t.halt = t.fault.isSome := by
  rcases latch_or_same_of_effect he with ⟨k, -, -, rfl⟩ | ⟨hhalt, hfault⟩
  · rfl
  · rw [hhalt, hfault, hs]

/-- The post-fetch PC of a fetch that has passed its test. -/
theorem afterFetch_pc_toNat {s : State} (h : s.pc.toNat + 1 ≤ 4095) : (afterFetch s).pc.toNat = s.pc.toNat + 2 := by
  rw [afterFetch_pc, BitVec.toNat_add]
  exact Nat.mod_eq_of_lt (by simp; omega)

/-- Settles O13: outcome by outcome of the step, and field by field of the invariant. -/
theorem stepKeepsInvariant : Obligations.StepKeepsInvariant := by
  intro s t hinv h
  obtain ⟨hmem, hpc, hslots, hlatch⟩ := hinv
  obtain ⟨-, ⟨hf, rfl⟩ | ⟨w, u, hf, -, rfl⟩ | ⟨w, i, hf, -, he⟩⟩ := step_next h
  · exact ⟨hmem, hpc, hslots, rfl⟩
  · have hfetch := (fetchWord_eq_some.mp hf).1
    refine ⟨hmem, ?_, hslots, hlatch⟩
    rw [reportUnknown_pc, afterFetch_pc_toNat hfetch]
    omega
  · have hfetch := (fetchWord_eq_some.mp hf).1
    have hpc' := afterFetch_pc_toNat hfetch
    have heff := exec_effect he
    exact ⟨memory_wf_of_effect heff hmem, pc_le_of_effect heff (by omega) (by omega) hslots,
      slots_le_of_effect heff (by omega) hslots, latched_of_effect heff hlatch⟩

end Sys2Proof.Proofs
end

section
/-! PROOFS. The return-address stack (spec/40_control_flow.md): 2nnn, 00EE, the stack as a last-in first-out store, and
the self-jump. -/

namespace Sys2Proof.Proofs

open Machine Claims

/-! ### What the writes leave unchanged -/

/-- A latched fault leaves every part but HALT and FAULT as it was. -/
theorem unchanged_latch (k : Fault) (s : State) : Unchanged [.latch] s (latch k s) := by
  intro p hp
  cases p
  case latch => exact absurd (List.mem_singleton.mpr rfl) hp
  all_goals simp [Part.same]

/-- An instruction that latches a fault: HALT and FAULT as the statements write them, and the frame. -/
theorem latches (k : Fault) {i : Instr} {s : State} (h : exec i s = .next (latch k s)) :
    ∃ t, exec i s = .next t ∧ t.halt = true ∧ t.fault = some k ∧ Unchanged [.latch] s t :=
  ⟨_, h, rfl, rfl, unchanged_latch k s⟩

/-- A write of PC, STACK and SP leaves every other part as it was. -/
theorem unchanged_pc_stack (a : Word) (st : Vector Word 16) (n : Fin 17) (s : State) :
    Unchanged [.pc, .stack] s { s with pc := a, stack := st, sp := n } := by
  intro p hp
  cases p
  case pc | stack => simp at hp
  case regs => exact fun _ => rfl
  all_goals simp [Part.same]

/-- A write of STACK and SP leaves every other part as it was. -/
theorem unchanged_stack (st : Vector Word 16) (n : Fin 17) (s : State) :
    Unchanged [.stack] s { s with stack := st, sp := n } := by
  intro p hp
  cases p
  case stack => simp at hp
  case regs => exact fun _ => rfl
  all_goals simp [Part.same]

/-! ### CALL and RET -/

/-- CALL with a free slot. -/
theorem exec_call_of_lt {s : State} (h : s.sp.val < 16) (nnn : Addr12) : exec (.call nnn) s = .next { s with
    pc := zext12 nnn, stack := s.stack.set s.sp.val s.pc h, sp := ⟨s.sp.val + 1, by omega⟩ } :=
  execCall_next.mpr (.inl ⟨h, rfl⟩)

/-- RET with an address stored. -/
theorem exec_ret_of_pos {s : State} (h : 0 < s.sp.val) : exec .ret s = .next { s with
    pc := s.stack[s.sp.val - 1]'(by have := s.sp.isLt; omega), sp := ⟨s.sp.val - 1, by omega⟩ } :=
  execRet_next.mpr (.inl ⟨h, rfl⟩)

/-- Settles O27: the two outcomes of CALL. -/
theorem callPushesReturnAddress : Obligations.CallPushesReturnAddress := by
  refine fun s nnn => ⟨fun h => ⟨_, exec_call_of_lt h nnn, zext12_toNat nnn, rfl, ?_, fun k hk => ?_,
    unchanged_pc_stack _ _ _ s⟩, fun h => latches _ (execCall_next.mpr (.inr ⟨h, rfl⟩))⟩
  · exact Vector.getElem_set_self h
  · exact Vector.getElem_set_ne h k.isLt (Ne.symm hk)

/-- Settles O28: the two outcomes of RET. -/
theorem returnPopsPc : Obligations.ReturnPopsPc := fun s =>
  ⟨fun h => ⟨_, exec_ret_of_pos h.1, rfl, rfl, rfl, unchanged_pc_stack _ _ _ s⟩,
    fun h => latches _ (execRet_next.mpr (.inr ⟨h, rfl⟩))⟩

/-- Settles O30: RET reads the slot that CALL wrote. -/
theorem callThenReturnResumesAfterCall : Obligations.CallThenReturnResumesAfterCall := by
  intro s nnn h
  refine ⟨_, _, exec_call_of_lt h nnn, exec_ret_of_pos (Nat.succ_pos _), ?_, rfl, ?_⟩
  · exact Vector.getElem_set_self h
  · have hpc : (s.stack.set s.sp.val s.pc h)[s.sp.val] = s.pc := Vector.getElem_set_self h
    simp only [Nat.add_sub_cancel, hpc]
    exact unchanged_stack _ _ s

/-! ### The stack as a store -/

/-- Popping one more address pops the next one below. -/
theorem popAll_succ (n : Nat) (s : State) :
    popAll (n + 1) s = (popAll n s).bind fun q => (pop q.2).map fun p => (q.1 ++ [p.1], p.2) := by
  induction n generalizing s with
  | zero => cases h : pop s <;> simp [popAll, h]
  | succ n ih =>
    rw [popAll, popAll]
    cases pop s with
    | none => rfl
    | some p =>
      simp only [Option.bind_some, ih]
      cases popAll n p.2 with
      | none => rfl
      | some q => cases h : pop q.2 <;> simp [h]

/-- What pushing a list leaves: SP counted up, the slots below as they were, and a stack that pops the list in reverse
and counts SP down again. -/
def Pushed (as : List Word) (s t : State) : Prop :=
  t = { s with stack := t.stack, sp := t.sp } ∧ t.sp.val = s.sp.val + as.length ∧
  (∀ k : Fin 16, k.val < s.sp.val → t.stack[k] = s.stack[k]) ∧
  popAll as.length t = some (as.reverse, { t with sp := s.sp })

/-- Pushing the first address of a list and then the rest. -/
theorem pushed_cons {a : Word} {as : List Word} {s t : State} (h : s.sp.val < 16)
    (ht : Pushed as { s with stack := s.stack.set s.sp.val a h, sp := ⟨s.sp.val + 1, by omega⟩ } t) :
    Pushed (a :: as) s t := by
  obtain ⟨hframe, hsp, hslots, hpop⟩ := ht
  refine ⟨hframe, by simpa [Nat.add_assoc, Nat.add_comm] using hsp, fun k hk => ?_, ?_⟩
  · rw [hslots k (Nat.lt_succ_of_lt hk)]
    exact Vector.getElem_set_ne h k.isLt (by omega)
  · have htop : t.stack[s.sp.val] = a := (hslots ⟨s.sp.val, h⟩ (Nat.lt_succ_self _)).trans (Vector.getElem_set_self h)
    have hlast : pop { t with sp := ⟨s.sp.val + 1, by omega⟩ } = some (a, { t with sp := s.sp }) :=
      pop_eq_some.mpr ⟨Nat.succ_pos _, by simp [htop]⟩
    rw [List.length_cons, popAll_succ, hpop]
    simp [hlast]

/-- A list that fits can be pushed. -/
theorem exists_pushAll (as : List Word) (s : State) (h : s.sp.val + as.length ≤ 16) :
    ∃ t, pushAll as s = some t ∧ Pushed as s t := by
  induction as generalizing s with
  | nil => exact ⟨s, rfl, rfl, rfl, fun _ _ => rfl, rfl⟩
  | cons a as ih =>
    rw [List.length_cons] at h
    have hsp : s.sp.val < 16 := by omega
    obtain ⟨t, ht, hpushed⟩ := ih { s with stack := s.stack.set s.sp.val a hsp, sp := ⟨s.sp.val + 1, by omega⟩ }
      (by show s.sp.val + 1 + as.length ≤ 16; omega)
    exact ⟨t, by rw [pushAll, push_eq_some.mpr ⟨hsp, rfl⟩]; exact ht, pushed_cons hsp hpushed⟩

/-- Settles O29: `Pushed`, by induction on the list. -/
theorem stackIsLastInFirstOut : Obligations.StackIsLastInFirstOut := by
  refine ⟨fun as s h => ?_, fun _ _ => push_eq_none, fun _ => pop_eq_none⟩
  obtain ⟨t, ht, hframe, hsp, -, hpop⟩ := exists_pushAll as s h
  refine ⟨t, _, ht, hsp, hpop, rfl, rfl, ?_⟩
  rw [hframe]
  exact unchanged_stack _ _ s

/-! ### The self-jump -/

/-- A 12-bit address that is PC, as a target. -/
theorem zext12_eq_of_toNat_eq {nnn : Addr12} {a : Word} (h : nnn.toNat = a.toNat) : zext12 nnn = a :=
  BitVec.eq_of_toNat_eq (by rw [zext12_toNat, h])

/-- Settles O32: the jump undoes what the fetch did to PC. -/
theorem selfJumpIsAFixedPoint : Obligations.SelfJumpIsAFixedPoint := by
  intro s nnn hf hpc
  rw [step_of_instr hf (decodeOfEncode _), exec_jp, zext12_eq_of_toNat_eq hpc]
  rfl

end Sys2Proof.Proofs
end

section
/-! PROOFS. Noninterference: ST, the queue of random bytes and the stack slots are not read by the instructions that
have no use for them (spec/10_state.md R14, R17, R22 (a)). -/

namespace Sys2Proof.Proofs

open Machine Claims

/-- A state with ST, the random queue and the stack slots replaced by functions of what they were. -/
def replaceUnread (st : Byte → Byte) (rands : List Byte → List Byte) (stack : Vector Word 16 → Vector Word 16)
    (s : State) : State :=
  { s with st := st s.st, rands := rands s.rands, stack := stack s.stack }

/-- The four instructions that read or write one of these stores: 2nnn and 00EE, Cxkk, Fx18. -/
def UsesReplaced (i : Instr) : Prop :=
  i = .ret ∨ (∃ nnn, i = .call nnn) ∨ (∃ x kk, i = .rnd x kk) ∨ ∃ x, i = .ldToSt x

section
variable {st : Byte → Byte} {rands : List Byte → List Byte} {stack : Vector Word 16 → Vector Word 16} {s t : State}

theorem skipIf_replaceUnread (c : Bool) :
    skipIf c (replaceUnread st rands stack s) = replaceUnread st rands stack (skipIf c s) := by
  cases c <;> rfl

theorem skipOnKey_replaceUnread {x : Reg} {down : Bool} (h : skipOnKey x down s = .next t) :
    skipOnKey x down (replaceUnread st rands stack s) = .next (replaceUnread st rands stack t) := by
  rcases skipOnKey_next.mp h with ⟨hx, rfl⟩ | ⟨hx, rfl⟩
  · exact skipOnKey_next.mpr (.inl ⟨hx, (skipIf_replaceUnread _).symm⟩)
  · exact skipOnKey_next.mpr (.inr ⟨hx, rfl⟩)

theorem storeAtI_replaceUnread {bs : List Byte} (h : storeAtI bs s = .next t) :
    storeAtI bs (replaceUnread st rands stack s) = .next (replaceUnread st rands stack t) := by
  rcases storeAtI_next.mp h with ⟨hspan, rfl⟩ | ⟨hspan, rfl⟩
  · exact storeAtI_next.mpr (.inl ⟨hspan, rfl⟩)
  · exact storeAtI_next.mpr (.inr ⟨hspan, rfl⟩)

/-- The other 30 instructions do the same with these stores replaced. -/
theorem exec_replaceUnread {i : Instr} (hi : ¬ UsesReplaced i) (h : exec i s = .next t) :
    exec i (replaceUnread st rands stack s) = .next (replaceUnread st rands stack t) := by
  cases i
  case ret => exact absurd (.inl rfl) hi
  case call nnn => exact absurd (.inr (.inl ⟨nnn, rfl⟩)) hi
  case rnd x kk => exact absurd (.inr (.inr (.inl ⟨x, kk, rfl⟩))) hi
  case ldToSt x => exact absurd (.inr (.inr (.inr ⟨x, rfl⟩))) hi
  case seImm x kk | sneImm x kk | seReg x y | sneReg x y =>
    cases h
    exact congrArg _ (skipIf_replaceUnread _)
  case skp | sknp => exact skipOnKey_replaceUnread h
  case ldBcd | storeRegs => exact storeAtI_replaceUnread h
  case drw =>
    rcases execDrw_next.mp h with ⟨hspan, r, hr, rfl⟩ | ⟨hspan, rfl⟩
    · exact execDrw_next.mpr (.inl ⟨hspan, r, hr, rfl⟩)
    · exact execDrw_next.mpr (.inr ⟨hspan, rfl⟩)
  case loadRegs =>
    rcases execLoadRegs_next.mp h with ⟨hspan, rfl⟩ | ⟨hspan, rfl⟩
    · exact execLoadRegs_next.mpr (.inl ⟨hspan, rfl⟩)
    · exact execLoadRegs_next.mpr (.inr ⟨hspan, rfl⟩)
  case ldKey =>
    rcases execLdKey_next.mp h with ⟨k, hk, rfl⟩ | ⟨hk, rfl⟩
    · exact execLdKey_next.mpr (.inl ⟨k, hk, rfl⟩)
    · exact execLdKey_next.mpr (.inr ⟨hk, rfl⟩)
  all_goals
    cases h
    rfl

end

/-- 00EE and 2nnn read neither ST nor the random queue, so all but Cxkk and Fx18 do the same with these two replaced. -/
theorem exec_replaceInputs {i : Instr} {s t : State} (hrnd : ∀ x kk, i ≠ .rnd x kk) (hst : ∀ x, i ≠ .ldToSt x)
    (st : Byte → Byte) (rands : List Byte → List Byte) (h : exec i s = .next t) :
    exec i (replaceUnread st rands id s) = .next (replaceUnread st rands id t) := by
  by_cases hu : UsesReplaced i
  · obtain rfl | ⟨nnn, rfl⟩ | ⟨x, kk, rfl⟩ | ⟨x, rfl⟩ := hu
    · rcases execRet_next.mp h with ⟨hsp, rfl⟩ | ⟨hsp, rfl⟩
      · exact execRet_next.mpr (.inl ⟨hsp, rfl⟩)
      · exact execRet_next.mpr (.inr ⟨hsp, rfl⟩)
    · rcases execCall_next.mp h with ⟨hsp, rfl⟩ | ⟨hsp, rfl⟩
      · exact execCall_next.mpr (.inl ⟨hsp, rfl⟩)
      · exact execCall_next.mpr (.inr ⟨hsp, rfl⟩)
    · exact absurd rfl (hrnd x kk)
    · exact absurd rfl (hst x)
  · exact exec_replaceUnread hu h

/-! ### The sound timer -/

/-- A draw does not look at ST. -/
theorem drawByte_replaceSound (s : State) (v : Byte) :
    drawByte { s with st := v } = ((drawByte s).1, { (drawByte s).2 with st := v }) := by
  cases h : s.rands <;> simp [drawByte, h]

/-- Settles O51: `exec_replaceInputs`, and Cxkk. -/
theorem soundTimerIsNeverRead : Obligations.SoundTimerIsNeverRead := by
  intro i s v hst
  obtain ⟨t, ht⟩ := exec_answers i s
  by_cases hrnd : ∃ x kk, i = .rnd x kk
  · obtain ⟨x, kk, rfl⟩ := hrnd
    rw [exec_rnd, exec_rnd, drawByte_replaceSound]
    rfl
  · push Not at hrnd
    rw [ht]
    exact exec_replaceInputs hrnd hst (fun _ => v) id ht

/-! ### The random byte -/

/-- An instruction other than Cxkk, with another random queue. -/
theorem exec_replaceRands {i : Instr} {s t : State} (hrnd : ∀ x kk, i ≠ .rnd x kk) (h : exec i s = .next t)
    (l : List Byte) : exec i { s with rands := l } = .next { t with rands := l } := by
  by_cases hst : ∃ x, i = .ldToSt x
  · obtain ⟨x, rfl⟩ := hst
    cases h
    rfl
  · push Not at hst
    exact exec_replaceInputs hrnd hst id (fun _ => l) h

/-- A step that runs no Cxkk, with another random queue. -/
theorem step_replaceRands {s t : State} (hrnd : ∀ w x kk, fetchWord s = some w → decode w ≠ .instr (.rnd x kk))
    (h : step s = .next t) (l : List Byte) : step { s with rands := l } = .next { t with rands := l } := by
  obtain ⟨hs, ⟨hf, rfl⟩ | ⟨w, u, hf, hd, rfl⟩ | ⟨w, i, hf, hd, he⟩⟩ := step_next h
  · exact step_of_fetchWord_eq_none (s := { s with rands := l }) hs hf
  · rw [step_of_fetchWord_eq_some (s := { s with rands := l }) hs hf, runWord_of_unknown hd]
    rfl
  · rw [step_of_fetchWord_eq_some (s := { s with rands := l }) hs hf, runWord_of_instr hd]
    exact exec_replaceRands (fun x kk hi => hrnd w x kk hf (hi ▸ hd)) he l

/-- What the driver's STEP answers and leaves, the queue put back (log entry 2). -/
theorem perform_step {s t : State} {r : Byte} (hs : s.halt = false)
    (h : step { s with rands := r :: s.rands } = .next t) :
    perform (.step r) s = (stepAnswer t, { t with rands := s.rands }) := by
  have hrun : perform (.step r) s = stepWith r s := if_neg (by simp [hs])
  rw [hrun, stepWith, h]

/-- A halted core refuses STEP. -/
theorem perform_step_of_halted {s : State} (hs : s.halt = true) (r : Byte) : perform (.step r) s = (.refused, s) :=
  if_pos hs

/-- A STEP that runs no Cxkk does what the step from the state without its byte does. -/
theorem perform_step_of_no_rnd {s t : State} (hrnd : ∀ w x kk, fetchWord s = some w → decode w ≠ .instr (.rnd x kk))
    (h : step s = .next t) (r : Byte) : perform (.step r) s = (stepAnswer t, { t with rands := s.rands }) :=
  perform_step (t := { t with rands := r :: s.rands }) (step_next h).1 (step_replaceRands hrnd h _)

/-- Settles O25: the right side of `perform_step_of_no_rnd` has no byte in it. -/
theorem stepIgnoresRandomByteUnlessRnd : Obligations.StepIgnoresRandomByteUnlessRnd := by
  intro s r r' hrnd
  cases hs : s.halt
  · obtain ⟨t, ht⟩ := step_answers hs
    rw [perform_step_of_no_rnd hrnd ht, perform_step_of_no_rnd hrnd ht]
  · rw [perform_step_of_halted hs, perform_step_of_halted hs]

/-! ### Stale stack slots -/

/-- A draw does not look at the stack. -/
theorem drawByte_replaceStack (s : State) (st : Vector Word 16) :
    drawByte { s with stack := st } = ((drawByte s).1, { (drawByte s).2 with stack := st }) := by
  cases h : s.rands <;> simp [drawByte, h]

/-- An instruction other than 2nnn and 00EE, with other stack slots. -/
theorem exec_replaceStack {i : Instr} {s t : State} (hret : i ≠ .ret) (hcall : ∀ nnn, i ≠ .call nnn)
    (h : exec i s = .next t) (st : Vector Word 16) : exec i { s with stack := st } = .next { t with stack := st } := by
  by_cases hu : UsesReplaced i
  · obtain rfl | ⟨nnn, rfl⟩ | ⟨x, kk, rfl⟩ | ⟨x, rfl⟩ := hu
    · exact absurd rfl hret
    · exact absurd rfl (hcall nnn)
    · rw [exec_rnd, Host.Outcome.next.injEq] at h
      rw [exec_rnd, drawByte_replaceStack, ← h]
      rfl
    · cases h
      rfl
  · exact exec_replaceUnread (st := id) (rands := id) (stack := fun _ => st) hu h

section
variable {s s' t : State}

/-- 00EE reads a slot below SP. -/
theorem execRet_sameBelowSp (hsame : SameBelowSp s s') (h : execRet s = .next t) :
    ∃ t', execRet s' = .next t' ∧ SameBelowSp t t' := by
  obtain ⟨hs', hslots⟩ := hsame
  rw [hs']
  rcases execRet_next.mp h with ⟨hsp, rfl⟩ | ⟨hsp, rfl⟩
  · have hlt : s.sp.val - 1 < s.sp.val := Nat.sub_one_lt_of_lt hsp
    have htop : s'.stack[s.sp.val - 1] = s.stack[s.sp.val - 1] := hslots ⟨s.sp.val - 1, by omega⟩ hlt
    exact ⟨_, execRet_next.mpr (.inl ⟨hsp, rfl⟩), by simp [htop], fun k hk => hslots k (Nat.lt_trans hk hlt)⟩
  · exact ⟨_, execRet_next.mpr (.inr ⟨hsp, rfl⟩), rfl, hslots⟩

/-- 2nnn writes the slot at SP, the only one that it makes visible. -/
theorem execCall_sameBelowSp {nnn : Addr12} (hsame : SameBelowSp s s') (h : execCall nnn s = .next t) :
    ∃ t', execCall nnn s' = .next t' ∧ SameBelowSp t t' := by
  obtain ⟨hs', hslots⟩ := hsame
  rw [hs']
  rcases execCall_next.mp h with ⟨hsp, rfl⟩ | ⟨hsp, rfl⟩
  · refine ⟨_, execCall_next.mpr (.inl ⟨hsp, rfl⟩), rfl, fun k hk => ?_⟩
    have hk : k.val < s.sp.val + 1 := hk
    simp only [Fin.getElem_fin, Vector.getElem_set]
    split
    · rfl
    · exact hslots k (by omega)
  · exact ⟨_, execCall_next.mpr (.inr ⟨hsp, rfl⟩), rfl, hslots⟩

end

/-- Settles O33: by `execRet_sameBelowSp`, `execCall_sameBelowSp`, and O16 for the others, which leave STACK and SP. -/
theorem staleStackSlotsAreUnobservable : Obligations.StaleStackSlotsAreUnobservable := by
  intro i s s' t hsame h
  by_cases hret : i = .ret
  · subst hret
    exact execRet_sameBelowSp hsame h
  by_cases hcall : ∃ nnn, i = .call nnn
  · obtain ⟨nnn, rfl⟩ := hcall
    exact execCall_sameBelowSp hsame h
  · push Not at hcall
    obtain ⟨hs', hslots⟩ := hsame
    obtain ⟨-, -, -, -, -, hstack, hsp, -⟩ := stateIsWrittenOnlyBy i s t h
    have hstack : t.stack = s.stack := by_contra fun hne => (hstack hne).elim hcall
    have hsp : t.sp = s.sp := by_contra fun hne => (hsp hne).elim hret fun ⟨nnn, hi⟩ => hcall nnn hi
    rw [hs']
    exact ⟨_, exec_replaceStack hret hcall h s'.stack, rfl, fun k hk => by rw [hstack]; exact hslots k (hsp ▸ hk)⟩

end Sys2Proof.Proofs
end

section
/-! PROOFS. Arithmetic (spec/41_alu.md), the rest: the flag writers with x = 15, the ignored y field of the shifts, and
the random byte. -/

namespace Sys2Proof.Proofs

open Machine Claims

/-! ### VF as destination -/

/-- Of two writes to VF the second survives, and no other register and no other part changes. -/
theorem setV_vf_setV_vf {b : Byte} {n : Nat} (a : Byte) (s : State) (hb : b.toNat = n) :
    (getV (setV vf b (setV vf a s)) vf).toNat = n ∧ OtherRegs [vf] s (setV vf b (setV vf a s)) ∧
      Unchanged [.regs] s (setV vf b (setV vf a s)) :=
  ⟨by rw [getV_setV_self, hb], otherRegs_setV_setV (by simp) (by simp) _ _ s,
    unchanged_trans (unchanged_setV _ _ s) (unchanged_setV _ _ _)⟩

/-- Settles O22: both writes go to VF, the flag second in 8xy4, 8xy5 and 8xy7 and the result second in the shifts. -/
theorem flagWritersWithVfAsDestination : Obligations.FlagWritersWithVfAsDestination := by
  intro s y
  refine ⟨⟨_, exec_addReg vf y s, ?add⟩, ⟨_, exec_subReg vf y s, ?sub⟩, ⟨_, exec_subnReg vf y s, ?subn⟩,
    ⟨_, exec_shr vf y s, ?shr⟩, ⟨_, exec_shl vf y s, ?shl⟩⟩
  case add => exact setV_vf_setV_vf _ s (carry_toNat _ _)
  case sub => exact setV_vf_setV_vf _ s (notBorrow_toNat _ _)
  case subn => exact setV_vf_setV_vf _ s (notBorrow_toNat _ _)
  case shr => exact setV_vf_setV_vf _ s (ushiftRight_one_toNat _)
  case shl => exact setV_vf_setV_vf _ s (shiftLeft_one_toNat _)

/-! ### The y field of the shifts -/

/-- A flag writer's two writes, where Vy is neither of them: they leave Vy, and another value in Vy changes nothing
else. -/
theorem flagThenResult_setV_other {x y : Reg} (hx : y ≠ x) (hvf : y ≠ vf) (result f b : Byte) (s : State) :
    getV (flagThenResult x result f s) y = getV s y ∧
    getV (flagThenResult x result f (setV y b s)) y = b ∧
    ∀ r, r ≠ y → getV (flagThenResult x result f (setV y b s)) r = getV (flagThenResult x result f s) r := by
  unfold flagThenResult
  refine ⟨?_, ?_, fun r hr => ?_⟩
  · rw [getV_setV_of_ne hx, getV_setV_of_ne hvf]
  · rw [getV_setV_of_ne hx, getV_setV_of_ne hvf, getV_setV_self]
  · simp only [getV_setV, hr.symm, if_false]

/-- Settles O23: y is no argument of the meanings, and Vy is not among the registers they name. -/
theorem shiftsIgnoreTheirYField : Obligations.ShiftsIgnoreTheirYField := by
  refine fun s x y y' => ⟨rfl, rfl, fun hx hvf b => ?_⟩
  have hread : getV (setV y b s) x = getV s x := getV_setV_of_ne hx.symm b s
  refine ⟨⟨_, _, exec_shr x y s, exec_shr x y _, ?_⟩, ⟨_, _, exec_shl x y s, exec_shl x y _, ?_⟩⟩
  · rw [hread]
    exact flagThenResult_setV_other hx hvf _ _ b s
  · rw [hread]
    exact flagThenResult_setV_other hx hvf _ _ b s

/-! ### The random byte -/

theorem drawByte_of_cons {s : State} {r : Byte} {rs : List Byte} (h : s.rands = r :: rs) :
    drawByte s = (r, { s with rands := rs }) := by
  simp [drawByte, h]

theorem drawByte_of_nil {s : State} (h : s.rands = []) :
    drawByte s = (Config.randByte s.draws, { s with draws := s.draws + 1 }) := by
  simp [drawByte, h]

/-- A write of the random input leaves every other part as it was. -/
theorem unchanged_setRandom (l : List Byte) (n : Nat) (s : State) :
    Unchanged [.random] s { s with rands := l, draws := n } := by
  intro p hp
  cases p
  case random => simp at hp
  case regs => exact fun _ => rfl
  all_goals simp [Part.same]

/-- A frame that lists more parts is weaker. -/
theorem unchanged_mono {but but' : List Part} {s t : State} (h : Unchanged but s t) (hsub : but ⊆ but') :
    Unchanged but' s t := fun p hp => h p fun hmem => hp (hsub hmem)

/-- What Cxkk leaves once it has drawn the byte b and left the state u: R111's clauses but for the random input. -/
theorem rnd_writes {s u : State} (hu : Unchanged [.random] s u) (x : Reg) (kk b : Byte) :
    getV (setV x (b &&& kk) u) x = b &&& kk ∧ getV (setV x (b &&& kk) u) x &&& kk = getV (setV x (b &&& kk) u) x ∧
    OtherRegs [x] s (setV x (b &&& kk) u) ∧ Unchanged [.regs, .random] s (setV x (b &&& kk) u) := by
  obtain ⟨hval, hother, hframe⟩ := writesReg_setV x (b &&& kk) u
  have hregs : ∀ r, getV u r = getV s r := hu .regs (by simp)
  refine ⟨hval, by rw [hval, BitVec.and_assoc, BitVec.and_self], fun r hr => (hother r hr).trans (hregs r), ?_⟩
  exact unchanged_trans (unchanged_mono hu (by simp)) (unchanged_mono hframe (by simp))

/-- Settles O24: the two cases of a draw. -/
theorem randomByteIsMaskedByKk : Obligations.RandomByteIsMaskedByKk := by
  refine ⟨fun s x kk r rs h => ?_, fun s x kk h => ?_⟩
  · obtain ⟨hval, hmask, hother, hframe⟩ := rnd_writes (unchanged_setRandom rs s.draws s) x kk r
    exact ⟨_, by rw [exec_rnd, drawByte_of_cons h], hval, hmask, rfl, rfl, hother, hframe⟩
  · obtain ⟨hval, hmask, hother, hframe⟩ :=
      rnd_writes (unchanged_setRandom s.rands (s.draws + 1) s) x kk (Config.randByte s.draws)
    exact ⟨_, by rw [exec_rnd, drawByte_of_nil h], hval, hmask, h, rfl, hother, hframe⟩

end Sys2Proof.Proofs
end

section
/-! PROOFS. Memory transfer (spec/42_index_memory.md): Fx33, Fx55 and Fx65. -/

namespace Sys2Proof.Proofs

open Machine Claims

/-- A write of memory leaves every other part as it was. -/
theorem unchanged_setMem (m : Memory) (s : State) : Unchanged [.memory] s { s with mem := m } := by
  intro p hp
  cases p
  case memory => simp at hp
  case regs => exact fun _ => rfl
  all_goals simp [Part.same]

/-! ### Stores -/

/-- A store at I inside MEM: its k-th byte at I + k, every byte outside the span as before, nothing else changed. -/
theorem storeAtI_stores {bs : List Byte} {s : State} (hm : s.mem.wf) (h : ea s bs.length ≤ 4096) :
    ∃ t, storeAtI bs s = .next t ∧ (∀ k (hk : k < bs.length), t.mem.read (ea s k) = bs[k]) ∧
      (∀ a, a < ea s 0 ∨ ea s bs.length ≤ a → t.mem.read a = s.mem.read a) ∧ Unchanged [.memory] s t :=
  ⟨_, storeAtI_next.mpr (.inl ⟨h, rfl⟩), fun k hk => Memory.read_writeBytes_inside bs (ea s 0) k s.mem h hm hk,
    fun a ha => Memory.read_writeBytes_outside bs (ea s 0) a s.mem ha, unchanged_setMem _ s⟩

/-- A number that fits in a byte is the byte's number. -/
theorem byte_ofNat_toNat {n : Nat} (h : n < 256) : (BitVec.ofNat 8 n).toNat = n := by
  rw [BitVec.toNat_ofNat, Nat.mod_eq_of_lt h]

/-- Settles O35: a store of the three digits. -/
theorem bcdStoresThreeDigits : Obligations.BcdStoresThreeDigits := by
  refine fun s x hm => ⟨fun h => ?_, fun h => latches _ (storeAtI_next.mpr (.inr ⟨h, rfl⟩))⟩
  obtain ⟨t, ht, hbytes, hother, hframe⟩ := storeAtI_stores (bs := bcdDigits (getV s x)) hm h
  have hx := (getV s x).isLt
  refine ⟨t, ht, ?_, ?_, ?_, hother, hframe⟩
  · rw [hbytes 0 (by simp)]
    exact byte_ofNat_toNat (by omega)
  · rw [hbytes 1 (by simp)]
    exact byte_ofNat_toNat (by omega)
  · rw [hbytes 2 (by simp)]
    exact byte_ofNat_toNat (by omega)

/-- Settles O36: a store of the register block. -/
theorem blockStoreWritesRegisters : Obligations.BlockStoreWritesRegisters := by
  intro s x hm
  have hlen := length_regBlock s x
  refine ⟨fun h => ?_, fun h => latches _ (storeAtI_next.mpr (.inr ⟨hlen ▸ h, rfl⟩))⟩
  obtain ⟨t, ht, hbytes, hother, hframe⟩ := storeAtI_stores (bs := regBlock s x) hm (hlen ▸ h)
  rw [hlen] at hother
  refine ⟨t, ht, fun k hk => ?_, hother, hframe⟩
  have hk : k.val < (regBlock s x).length := by omega
  rw [hbytes k.val hk, getElem_regBlock]

/-- Settles O38: the two bytes at PC are the first two of the block. -/
theorem storedBytesAreFetched : Obligations.StoredBytesAreFetched := by
  intro s x hm hx h hpc
  obtain ⟨t, ht, hstored, -, hframe⟩ := (blockStoreWritesRegisters s x hm).1 h
  have htpc : t.pc = s.pc := hframe .pc (by simp)
  have h0 : t.mem.read s.pc.toNat = getV s 0 := hpc ▸ hstored 0 (Nat.zero_le _)
  have h1 : t.mem.read (s.pc.toNat + 1) = getV s 1 := hpc ▸ hstored 1 hx
  refine ⟨t, ht, fetchWord_eq_some.mpr ?_⟩
  rw [htpc, h0, h1]
  refine ⟨?_, rfl⟩
  rw [hpc]
  unfold ea at h
  omega

/-! ### The load -/

/-- Fx65 leaves every part but the registers as it was. -/
theorem unchanged_loadBlock (x : Reg) (s : State) : Unchanged [.regs] s (loadBlock s x) := by
  intro p hp
  cases p
  case regs => simp at hp
  all_goals simp [Part.same]

/-- Settles O37: the two outcomes of the load. -/
theorem blockLoadReadsMemory : Obligations.BlockLoadReadsMemory := fun s x =>
  ⟨fun h => ⟨_, execLoadRegs_next.mpr (.inl ⟨h, rfl⟩), fun k hk => by rw [getV_loadBlock, if_pos hk],
    fun k hk => by rw [getV_loadBlock, if_neg (Nat.not_le.mpr hk)], unchanged_loadBlock x s⟩,
    fun h => latches _ (execLoadRegs_next.mpr (.inr ⟨h, rfl⟩))⟩

end Sys2Proof.Proofs
end

section
/-! PROOFS. The sprite compositor (spec/43_display.md): the loop of R137 as the plotting of a list of pixels without
repetition, from which it is an exclusive-or; Dxyn; the display port. -/

namespace Sys2Proof.Proofs

open Machine Claims

/-! ### The pixels of a sprite -/

/-- Plotting pixels one after the other. -/
def plotAll (ps : List (Nat × Nat)) (a : Canvas) : Canvas := ps.foldl (fun acc p => plot p.1 p.2 acc) a

/-- The set pixels of one sprite row at (ox, py). -/
def rowPixels (b : Byte) (ox py : Nat) : List (Nat × Nat) :=
  ((List.range 8).filter fun c => b.getLsbD (7 - c)).map fun c => (ox + c, py)

/-- The set pixels of the rows from py downward. -/
def spritePixels : List Byte → Nat → Nat → List (Nat × Nat)
  | [], _, _ => []
  | b :: bs, ox, py => rowPixels b ox py ++ spritePixels bs ox (py + 1)

theorem plotRow_eq_plotAll (b : Byte) (ox py : Nat) (a : Canvas) :
    plotRow b ox py a = plotAll (rowPixels b ox py) a := by
  rw [plotAll, rowPixels, List.foldl_map, List.foldl_filter]
  rfl

theorem plotRows_eq_plotAll (bs : List Byte) (ox py : Nat) (a : Canvas) :
    plotRows bs ox py a = plotAll (spritePixels bs ox py) a := by
  induction bs generalizing py a with
  | nil => rfl
  | cons b bs ih => rw [plotRows, ih, plotRow_eq_plotAll, spritePixels, plotAll, plotAll, plotAll, List.foldl_append]

theorem mem_rowPixels {b : Byte} {ox py cx cy : Nat} :
    (cx, cy) ∈ rowPixels b ox py ↔ cy = py ∧ ox ≤ cx ∧ cx < ox + 8 ∧ b.getLsbD (7 - (cx - ox)) = true := by
  simp only [rowPixels, List.mem_map, List.mem_filter, List.mem_range, Prod.mk.injEq]
  constructor
  · rintro ⟨c, ⟨hc, hb⟩, rfl, rfl⟩
    exact ⟨rfl, by omega, by omega, by rwa [Nat.add_sub_cancel_left]⟩
  · rintro ⟨rfl, hle, hlt, hb⟩
    exact ⟨cx - ox, ⟨by omega, hb⟩, by omega, rfl⟩

/-- The pixels are the cells that the sprite covers. -/
theorem mem_spritePixels {bs : List Byte} {ox py cx cy : Nat} :
    (cx, cy) ∈ spritePixels bs ox py ↔ spriteCovers ox py bs cx cy = true := by
  induction bs generalizing py with
  | nil => simp [spritePixels, spriteCovers]
  | cons b bs ih =>
    rw [spritePixels, List.mem_append, mem_rowPixels, ih]
    simp only [spriteCovers, Bool.and_eq_true, decide_eq_true_eq, List.length_cons]
    by_cases hcy : cy = py
    · subst hcy
      simp [and_assoc]
    · by_cases hlt : py < cy
      · rw [show cy - py = cy - (py + 1) + 1 by omega, List.getD_cons_succ]
        grind
      · grind

theorem nodup_rowPixels (b : Byte) (ox py : Nat) : (rowPixels b ox py).Nodup :=
  (List.nodup_range.filter _).map fun c d h => by simpa using h

/-- No pixel is plotted twice. -/
theorem nodup_spritePixels (bs : List Byte) (ox py : Nat) : (spritePixels bs ox py).Nodup := by
  induction bs generalizing py with
  | nil => exact List.nodup_nil
  | cons b bs ih =>
    refine (nodup_rowPixels b ox py).append (ih (py + 1)) ?_
    rintro ⟨cx, cy⟩ hrow hrest
    have hcy := (mem_rowPixels.mp hrow).1
    rw [mem_spritePixels, spriteCovers, Bool.and_eq_true, decide_eq_true_eq] at hrest
    omega

/-! ### Plotting distinct pixels -/

/-- A pixel off the display or elsewhere leaves a cell as it was. -/
theorem cell_plot_of_ne {px py cx cy : Nat} (h : (cx, cy) ≠ (px, py)) (a : Canvas) :
    cell (plot px py a).1 cx cy = cell a.1 cx cy := by
  by_cases hon : onDisplay cx cy
  · have hne : ¬ (cx = px ∧ cy = py) := fun ⟨hx, hy⟩ => h (by rw [hx, hy])
    rw [cell_plot px py cx cy a hon, decide_eq_false hne, Bool.xor_false]
  · rw [cell_off _ hon, cell_off _ hon]

/-- Plotting distinct pixels inverts the cells they name. -/
theorem cell_plotAll {ps : List (Nat × Nat)} (hps : ps.Nodup) (a : Canvas) {cx cy : Nat} (h : onDisplay cx cy) :
    cell (plotAll ps a).1 cx cy = (cell a.1 cx cy ^^ decide ((cx, cy) ∈ ps)) := by
  induction ps generalizing a with
  | nil => simp [plotAll]
  | cons p ps ih =>
    obtain ⟨hp, hps⟩ := List.nodup_cons.mp hps
    have hstep := ih hps (plot p.1 p.2 a)
    rw [cell_plot _ _ _ _ _ h] at hstep
    rw [plotAll, List.foldl_cons]
    refine hstep.trans ?_
    by_cases he : (cx, cy) = p
    · subst he
      simp [hp]
    · have hne : ¬ (cx = p.1 ∧ cy = p.2) := fun ⟨hx, hy⟩ => he (Prod.ext hx hy)
      simp [he, hne]

/-- Plotting distinct pixels reports a collision exactly when one of them names a set cell. -/
theorem plotAll_snd {ps : List (Nat × Nat)} (hps : ps.Nodup) (a : Canvas) :
    (plotAll ps a).2 = true ↔ a.2 = true ∨ ∃ p ∈ ps, cell a.1 p.1 p.2 = true := by
  induction ps generalizing a with
  | nil => simp [plotAll]
  | cons p ps ih =>
    obtain ⟨hp, hps⟩ := List.nodup_cons.mp hps
    have hrest : (∃ q ∈ ps, cell (plot p.1 p.2 a).1 q.1 q.2 = true) ↔ ∃ q ∈ ps, cell a.1 q.1 q.2 = true := by
      refine exists_congr fun q => and_congr_right fun hq => ?_
      rw [cell_plot_of_ne (fun he : q = p => hp (he ▸ hq)) a]
    refine (ih hps (plot p.1 p.2 a)).trans ?_
    rw [plot_snd, hrest, Bool.or_eq_true, List.exists_mem_cons_iff, or_assoc]

/-! ### The compositor -/

theorem composite_eq_plotAll (vx vy : Byte) (sprite : List Byte) (d : Display) :
    composite vx vy sprite d = plotAll (spritePixels sprite (vx.toNat % 64) (vy.toNat % 32)) (d, false) :=
  plotRows_eq_plotAll sprite _ _ _

/-- Each cell of the composite. -/
theorem cell_composite (vx vy : Byte) (sprite : List Byte) (d : Display) {cx cy : Nat} (h : onDisplay cx cy) :
    cell (composite vx vy sprite d).1 cx cy =
      (cell d cx cy ^^ spriteCovers (vx.toNat % 64) (vy.toNat % 32) sprite cx cy) := by
  rw [composite_eq_plotAll, cell_plotAll (nodup_spritePixels _ _ _) _ h]
  simp [mem_spritePixels]

/-- The collision of the composite. -/
theorem composite_snd (vx vy : Byte) (sprite : List Byte) (d : Display) :
    (composite vx vy sprite d).2 = true ↔ ∃ cx cy, cx < 64 ∧ cy < 32 ∧ cell d cx cy = true ∧
      spriteCovers (vx.toNat % 64) (vy.toNat % 32) sprite cx cy = true := by
  rw [composite_eq_plotAll, plotAll_snd (nodup_spritePixels _ _ _)]
  constructor
  · rintro (h | ⟨⟨cx, cy⟩, hmem, hcell⟩)
    · exact absurd h (by simp)
    · have hon : onDisplay cx cy := by_contra fun hoff => by simp [cell_off _ hoff] at hcell
      exact ⟨cx, cy, by omega, by omega, hcell, mem_spritePixels.mp hmem⟩
  · rintro ⟨cx, cy, -, -, hcell, hcov⟩
    exact .inr ⟨(cx, cy), mem_spritePixels.mpr hcov, hcell⟩

/-- Settles O40: `cell_composite` and `composite_snd`. -/
theorem compositeIsClippedXor : Obligations.CompositeIsClippedXor := fun vx vy sprite d =>
  ⟨fun _ _ hx hy => cell_composite vx vy sprite d ⟨Nat.le_of_lt_succ hx, Nat.le_of_lt_succ hy⟩,
    composite_snd vx vy sprite d⟩

/-- Settles O41: an exclusive-or done twice; after a first draw without collision, every covered cell is set. -/
theorem drawingTwiceRestoresTheDisplay : Obligations.DrawingTwiceRestoresTheDisplay := by
  refine fun vx vy sprite d => ⟨display_ext fun cx cy h => ?_, fun hfirst => ?_⟩
  · rw [cell_composite _ _ _ _ h, cell_composite _ _ _ _ h, Bool.xor_assoc, Bool.xor_self, Bool.xor_false]
  · rw [composite_snd]
    refine exists_congr fun cx => exists_congr fun cy => and_congr_right fun hx => and_congr_right fun hy => ?_
    refine ⟨fun h => h.2, fun hcov => ⟨?_, hcov⟩⟩
    have hclear : cell d cx cy = false := by
      rw [Bool.eq_false_iff]
      intro hset
      rw [(composite_snd vx vy sprite d).mpr ⟨cx, cy, hx, hy, hset, hcov⟩] at hfirst
      exact absurd hfirst (by simp)
    rw [cell_composite _ _ _ _ ⟨Nat.le_of_lt_succ hx, Nat.le_of_lt_succ hy⟩, hclear, hcov, Bool.false_xor]

/-! ### Dxyn -/

/-- A write of VF and the display leaves every other part as it was. -/
theorem unchanged_draw (b : Byte) (d : Display) (s : State) :
    Unchanged [.regs, .display] s (setV vf b { s with disp := d }) :=
  unchanged_trans (unchanged_mono (unchanged_setDisp d s) (by simp)) (unchanged_mono (unchanged_setV _ _ _) (by simp))

theorem flag_toNat (c : Bool) : (flag c).toNat = if c = true then 1 else 0 := by cases c <;> rfl

/-- Settles O42: the two outcomes of DRW. -/
theorem drawCompositesAndSetsVf : Obligations.DrawCompositesAndSetsVf := by
  refine fun s x y n => ⟨fun h => ?_, fun h => latches _ (execDrw_next.mpr (.inr ⟨h, rfl⟩))⟩
  refine ⟨_, s.mem.readBytes (ea s 0) n.val, execDrw_next.mpr (.inl ⟨h, _, rfl, rfl⟩), Memory.length_readBytes _ _ _,
    fun r hr => Memory.getElem_readBytes _ _ _ r hr, rfl, ?_, fun hn => ?_, fun r hr => ?_, unchanged_draw _ _ s⟩
  · rw [getV_setV_self, flag_toNat]
  · subst hn
    exact ⟨rfl, getV_setV_self _ _ _⟩
  · exact getV_setV_of_ne (List.ne_of_not_mem_cons hr) _ _

/-! ### The display port -/

/-- Settles O43: the port answers DISP itself. -/
theorem displayPortShowsEveryCell : Obligations.DisplayPortShowsEveryCell := fun s =>
  ⟨s.disp, rfl, fun _ _ hx hy => (cell_eq s.disp ⟨Nat.le_of_lt_succ hx, Nat.le_of_lt_succ hy⟩).symm⟩

end Sys2Proof.Proofs
end

section
/-! PROOFS. Keys and timers (spec/44_keys_timers.md, spec/60_exceptions.md sections 6 and 7): Ex9E and ExA1, the
key-wait step, the ticks and the snapshot. -/

namespace Sys2Proof.Proofs

open Machine Claims

/-! ### Keys -/

/-- A key skip that passes its test. -/
theorem skipOnKey_of_lt {s : State} {x : Reg} (h : (getV s x).toNat < 16) (down : Bool) :
    skipOnKey x down s = .next (skipIf (s.keys[(getV s x).toNat] == down) s) :=
  skipOnKey_next.mpr (.inl ⟨h, rfl⟩)

/-- Settles O44: the two outcomes of a key skip. -/
theorem keySkips : Obligations.KeySkips := by
  refine fun s x => ⟨fun h => ⟨⟨_, skipOnKey_of_lt h true, ?_, unchanged_skipIf _ s⟩,
    ⟨_, skipOnKey_of_lt h false, ?_, unchanged_skipIf _ s⟩⟩, fun h => ⟨?_, ?_⟩⟩
  · rw [skipIf_pc, beq_true]
  · rw [skipIf_pc, beq_false]
    cases s.keys[(getV s x).toNat] <;> rfl
  · exact latches _ (skipOnKey_next.mpr (.inr ⟨h, rfl⟩))
  · exact latches _ (skipOnKey_next.mpr (.inr ⟨h, rfl⟩))

/-- Settles O46: the rewind undoes the fetch. -/
theorem keyWaitStepLeavesTheState : Obligations.KeyWaitStepLeavesTheState := by
  intro s x hf hup
  rw [step_of_instr hf (decodeOfEncode _),
    exec_ldKey_of_lowestKey_eq_none (lowestKey_eq_none.mpr (fun k => hup k) : lowestKey (afterFetch s).keys = none)]
  simp [rewind, afterFetch]

/-! ### Operations of a running and of a halted machine -/

theorem unlessHalted_of_running {s : State} (h : s.halt = false) (f : State → Answer × State) :
    unlessHalted f s = f s :=
  if_neg (by simp [h])

theorem unlessHalted_of_halted {s : State} (h : s.halt = true) (f : State → Answer × State) :
    unlessHalted f s = (.refused, s) := if_pos h

/-- Settles O52: the operation is one write of KEYS. -/
theorem setKeysReplacesTheSnapshot : Obligations.SetKeysReplacesTheSnapshot := by
  refine fun s states => ⟨fun h => ⟨_, unlessHalted_of_running h _, fun _ => rfl, ?_⟩,
    fun h => unlessHalted_of_halted h _⟩
  intro p hp
  cases p
  case keys => simp at hp
  case regs => exact fun _ => rfl
  all_goals simp [Part.same]

/-! ### Timers -/

theorem countDown_toNat (t : Byte) : (countDown t).toNat = t.toNat - 1 := by
  have ht := t.isLt
  unfold countDown
  split
  · rw [BitVec.toNat_sub, show (1 : Byte).toNat = 1 from rfl]
    omega
  · omega

theorem perform_tickTimers {s : State} (h : s.halt = false) : perform .tickTimers s =
    (.tone (s.st == 1), { s with dt := countDown s.dt, st := countDown s.st }) := unlessHalted_of_running h _

/-- The tone signal is that of ST = 1. -/
theorem tone_iff (t : Byte) : (t == 1) = true ↔ t.toNat = 1 := by
  rw [beq_iff_eq, ← BitVec.toNat_inj]
  rfl

/-- Settles O48: the two timers counted down. -/
theorem tickCountsBothTimersDown : Obligations.TickCountsBothTimersDown := by
  refine fun s => ⟨fun h => ⟨_, _, perform_tickTimers h, countDown_toNat _, countDown_toNat _, tone_iff _, ?_⟩,
    fun h => unlessHalted_of_halted h _⟩
  intro p hp
  cases p
  case delay | sound => simp at hp
  case regs => exact fun _ => rfl
  all_goals simp [Part.same]

/-- What n ticks leave of a running machine. -/
theorem ticks_counts {s : State} (n : Nat) (h : s.halt = false) : (ticks n s).halt = false ∧
    (ticks n s).dt.toNat = s.dt.toNat - n ∧ (ticks n s).st.toNat = s.st.toNat - n := by
  induction n generalizing s with
  | zero => exact ⟨h, rfl, rfl⟩
  | succ n ih =>
    rw [ticks, perform_tickTimers h]
    obtain ⟨hhalt, hdt, hst⟩ := ih (s := { s with dt := countDown s.dt, st := countDown s.st }) h
    refine ⟨hhalt, hdt.trans ?_, hst.trans ?_⟩
    · simp only [countDown_toNat]
      omega
    · simp only [countDown_toNat]
      omega

/-- Settles O49: the answer of the next tick is that of ST = 1, and ST has counted down by n. -/
theorem timersReachZeroAfterTheirValue : Obligations.TimersReachZeroAfterTheirValue := by
  intro s n h
  obtain ⟨hhalt, hdt, hst⟩ := ticks_counts n h
  refine ⟨hdt, hst, ?_⟩
  rw [perform_tickTimers hhalt, Answer.tone.injEq, tone_iff, hst]
  omega

end Sys2Proof.Proofs
end

section
/-! PROOFS. The driver's operations (spec/00_scope.md, spec/70_reset_and_hazards.md): start-up, loading, the answers of
STEP, which operation changes what, and the invariant of every reachable state. -/

namespace Sys2Proof.Proofs

open Machine Claims

/-! ### NEW and INITIALIZE -/

/-- Above the glyph set an unlisted address reads as 0. -/
theorem resetByte_of_le {a : Nat} (h : 80 ≤ a) : resetByte a = 0 :=
  List.getD_eq_default _ _ (by rw [length_glyphs]; exact h)

/-- Memory after NEW is 0 everywhere. -/
theorem zeroMemory_read (a : Nat) : zeroMemory.read a = 0 := by
  have hlen : (List.replicate 80 (0 : Byte)).length = 80 := List.length_replicate
  unfold zeroMemory
  by_cases h : a < 80
  · have := Memory.read_writeBytes_inside (List.replicate 80 0) 0 a [] (by rw [hlen]; decide) Memory.reset_wf
      (by rw [hlen]; exact h)
    rwa [Nat.zero_add, List.getElem_replicate] at this
  · rw [Memory.read_writeBytes_outside _ _ _ _ (.inr (by rw [hlen]; omega))]
    exact resetByte_of_le (Nat.not_lt.mp h)

/-- Settles O53: field by field. -/
theorem newZeroesEverything : Obligations.NewZeroesEverything := fun s =>
  ⟨newFrom s, rfl, fun r => by simp [getV, newFrom, newMachine, State.reset], rfl, rfl,
    fun k => by simp [newFrom, newMachine, State.reset], rfl, rfl, rfl, zeroMemory_read,
    fun k _ => BitVec.getLsbD_zero, fun k => by simp [newFrom, newMachine, State.reset], rfl, rfl⟩

/-- INITIALIZE after NEW leaves the memory after reset, which lists nothing. -/
theorem writeBytes_glyphs_zeroMemory : zeroMemory.writeBytes 0 glyphs = [] := by decide +kernel

/-- Settles O54: but for memory and PC the two states are one. -/
theorem resetIsNewThenInitialize : Obligations.ResetIsNewThenInitialize := by
  refine ⟨?_, fun r => by simp [getV, State.reset], rfl, rfl, fun a ha => resetByte_of_le ha⟩
  show (Answer.ok, initWith glyphs newMachine) = (.ok, State.reset)
  rw [initWith, show newMachine.mem = zeroMemory from rfl, writeBytes_glyphs_zeroMemory]
  rfl

/-- Settles O55: a block write at 0, which a second one repeats. -/
theorem initializeWritesGlyphsAndPc : Obligations.InitializeWritesGlyphsAndPc := by
  refine ⟨fun s table hlen hm => ?_, fun s h => unlessHalted_of_running h _, length_glyphs⟩
  have hinside : ∀ u : State, u.mem.wf → ∀ d, d < 80 → (initWith table u).mem.read d = table.getD d 0 := by
    intro u hu d hd
    have hd' : d < table.length := by omega
    have := Memory.read_writeBytes_inside table 0 d u.mem (by omega) hu hd'
    rw [Nat.zero_add] at this
    rw [initWith_mem, this, List.getD_eq_getElem _ _ hd']
  have houtside : ∀ u : State, ∀ a, 80 ≤ a → (initWith table u).mem.read a = u.mem.read a := fun u a ha =>
    Memory.read_writeBytes_outside table 0 a u.mem (.inr (by omega))
  refine ⟨hinside s hm, houtside s, rfl, fun p hp => ?_, fun p _ => ?_⟩
  · cases p
    case pc | memory => simp at hp
    case regs => exact fun _ => rfl
    all_goals simp [Part.same]
  · cases p
    case memory =>
      intro a
      by_cases ha : a < 80
      · rw [hinside _ (initWith_wf table s (by omega) hm) a ha, hinside s hm a ha]
      · exact houtside _ a (Nat.not_lt.mp ha)
    case regs => exact fun _ => rfl
    all_goals simp [Part.same]

/-! ### LOAD_PROGRAM -/

theorem loadProgram_of_le {bytes : List Byte} (h : bytes.length ≤ 3584) (s : State) :
    loadProgram bytes s = (.ok, { s with mem := s.mem.writeBytes 512 bytes }) := if_neg (Nat.not_lt.mpr h)

theorem loadProgram_of_lt {bytes : List Byte} (h : 3584 < bytes.length) (s : State) :
    loadProgram bytes s = (.fault .capacityError, latch .capacityError s) := if_pos h

/-- Settles O56: the two outcomes of the length test. -/
theorem loadProgramCopiesBytes : Obligations.LoadProgramCopiesBytes := by
  refine fun s bytes hs hm => ⟨fun h => ?_, fun h => ?_⟩
  · exact ⟨_, (unlessHalted_of_running hs _).trans (loadProgram_of_le h s),
      fun k hk => Memory.read_writeBytes_inside bytes 512 k s.mem (by omega) hm hk,
      fun a ha => Memory.read_writeBytes_outside bytes 512 a s.mem ha, unchanged_setMem _ s⟩
  · exact ⟨_, (unlessHalted_of_running hs _).trans (loadProgram_of_lt h s), rfl, rfl, unchanged_latch _ s⟩

/-! ### The halted core -/

/-- Settles O58: the operations but NEW and DISPLAY are guarded by HALT. -/
theorem haltedCoreRefusesOperations : Obligations.HaltedCoreRefusesOperations := by
  refine fun s h => ⟨fun op hnew hdisplay => ?_, rfl, rfl, rfl⟩
  cases op
  case new => exact absurd rfl hnew
  case display => exact absurd rfl hdisplay
  all_goals exact unlessHalted_of_halted h _

/-! ### The answers of STEP -/

theorem stepAnswer_of_fault {t : State} {k : Fault} (h : t.fault = some k) : stepAnswer t = .fault k := by
  simp [stepAnswer, h]

theorem stepAnswer_of_event {t : State} {w : Word} (h : t.fault = none) (he : t.event = some w) :
    stepAnswer t = .unknownOpcode w := by
  simp [stepAnswer, h, he]

theorem stepAnswer_of_none {t : State} (h : t.fault = none) (he : t.event = none) : stepAnswer t = .ok := by
  simp [stepAnswer, h, he]

/-- Settles O59: the answer is read from the state that the step leaves; an instruction reports no event. -/
theorem stepAnswersTheDriver : Obligations.StepAnswersTheDriver := by
  intro s r hs hfault
  refine ⟨fun w hf hd => ?_, fun t ht k hk => ?_, fun w i t hf hd ht hnone => ?_⟩
  · have hstep := step_of_unknown (s := { s with rands := r :: s.rands }) hf hd
    exact (perform_step hs hstep).trans (Prod.ext (stepAnswer_of_event hfault rfl) rfl)
  · rw [perform_step hs ht, stepAnswer_of_fault hk]
  · have hexec := (step_of_instr (s := { s with rands := r :: s.rands }) hf hd).symm.trans ht
    obtain ⟨-, hevent, -⟩ := stateIsWrittenOnlyBy _ _ _ hexec
    rw [perform_step hs ht, stepAnswer_of_none hnone hevent]

/-! ### Which operation changes what -/

/-- A halted core's state is changed by NEW alone. -/
theorem perform_snd_of_halted {op : Op} {s : State} (h : s.halt = true) (hnew : op ≠ .new) : (perform op s).2 = s := by
  by_cases hdisplay : op = .display
  · rw [hdisplay]; rfl
  · rw [(haltedCoreRefusesOperations s h).1 op hnew hdisplay]

theorem perform_initCore_snd {s : State} (h : s.halt = false) : (perform .initCore s).2 = initWith glyphs s :=
  congrArg Prod.snd (unlessHalted_of_running h _)

theorem perform_loadProgram_snd {s : State} (h : s.halt = false) (bytes : List Byte) :
    (perform (.loadProgram bytes) s).2 = (loadProgram bytes s).2 :=
  congrArg Prod.snd (unlessHalted_of_running h _)

theorem perform_tickTimers_snd {s : State} (h : s.halt = false) :
    (perform .tickTimers s).2 = { s with dt := countDown s.dt, st := countDown s.st } :=
  congrArg Prod.snd (perform_tickTimers h)

theorem perform_setKeys_snd {s : State} (h : s.halt = false) (states : Keys) :
    (perform (.setKeys states) s).2 = { s with keys := states } :=
  congrArg Prod.snd (unlessHalted_of_running h _)

/-- The state a running machine's STEP leaves is that of `step` with the byte queued, the queue put back. -/
theorem exists_step_of_perform {s : State} (h : s.halt = false) (r : Byte) :
    ∃ t, step { s with rands := r :: s.rands } = .next t ∧ (perform (.step r) s).2 = { t with rands := s.rands } := by
  obtain ⟨t, ht⟩ := step_answers (s := { s with rands := r :: s.rands }) h
  exact ⟨t, ht, congrArg Prod.snd (perform_step h ht)⟩

/-- LOAD_PROGRAM changes memory, or HALT and FAULT. -/
theorem loadProgram_snd (bytes : List Byte) (s : State) :
    (loadProgram bytes s).2 = { s with mem := s.mem.writeBytes 512 bytes } ∨
      (loadProgram bytes s).2 = latch .capacityError s := by
  by_cases h : bytes.length ≤ 3584
  · exact .inl (by rw [loadProgram_of_le h])
  · exact .inr (by rw [loadProgram_of_lt (Nat.not_le.mp h)])

/-- No STEP writes KEYS. -/
theorem step_keys {s t : State} (h : step s = .next t) : t.keys = s.keys := by
  obtain ⟨-, ⟨-, rfl⟩ | ⟨w, u, -, -, rfl⟩ | ⟨w, i, -, -, he⟩⟩ := step_next h
  · rfl
  · rfl
  · exact (stateIsWrittenOnlyBy _ _ _ he).1

/-- Settles O57: operation by operation, for a running machine; a halted one changes by NEW alone. -/
theorem operationsChangeOnlyTheirStores : Obligations.OperationsChangeOnlyTheirStores := by
  rintro op s t rfl
  by_cases hnew : op = .new
  · simp [hnew]
  cases hs : s.halt
  case true => simp [perform_snd_of_halted hs hnew, hs]
  cases op
  case new => exact absurd rfl hnew
  case initCore => simp [perform_initCore_snd hs, hs]
  case loadProgram bytes =>
    rw [perform_loadProgram_snd hs]
    rcases loadProgram_snd bytes s with h | h <;> simp [h]
  case step r =>
    obtain ⟨u, hu, hsnd⟩ := exists_step_of_perform hs r
    simp [hsnd, step_keys hu]
  case tickTimers => simp [perform_tickTimers_snd hs, hs]
  case setKeys states => simp [perform_setKeys_snd hs, hs]
  case display => simp [perform, hs]

/-! ### Timers under every operation -/

/-- No operation but STEP raises a timer. -/
theorem timers_le_of_not_step {op : Op} (hstep : ∀ r, op ≠ .step r) (s : State) :
    (perform op s).2.dt.toNat ≤ s.dt.toNat ∧ (perform op s).2.st.toNat ≤ s.st.toNat := by
  by_cases hnew : op = .new
  · subst hnew
    exact ⟨Nat.zero_le _, Nat.zero_le _⟩
  cases hs : s.halt
  case true => rw [perform_snd_of_halted hs hnew]; exact ⟨le_rfl, le_rfl⟩
  cases op
  case new => exact absurd rfl hnew
  case step r => exact absurd rfl (hstep r)
  case initCore => rw [perform_initCore_snd hs]; exact ⟨le_rfl, le_rfl⟩
  case loadProgram bytes =>
    rw [perform_loadProgram_snd hs]
    rcases loadProgram_snd bytes s with h | h <;> rw [h] <;> exact ⟨le_rfl, le_rfl⟩
  case tickTimers =>
    simp only [perform_tickTimers_snd hs, countDown_toNat]
    omega
  case setKeys states => rw [perform_setKeys_snd hs]; exact ⟨le_rfl, le_rfl⟩
  case display => exact ⟨le_rfl, le_rfl⟩

/-- A step that changes DT runs Fx15. -/
theorem step_dt {s t : State} (h : step s = .next t) (hne : t.dt ≠ s.dt) :
    ∃ w x, fetchWord s = some w ∧ decode w = .instr (.ldToDt x) ∧ t.dt = getV s x := by
  obtain ⟨-, ⟨-, rfl⟩ | ⟨w, u, -, -, rfl⟩ | ⟨w, i, hf, hd, he⟩⟩ := step_next h
  · exact absurd rfl hne
  · exact absurd rfl hne
  · obtain ⟨-, -, hdt, -⟩ := stateIsWrittenOnlyBy _ _ _ he
    obtain ⟨x, rfl⟩ := hdt hne
    cases he
    exact ⟨w, x, hf, hd, rfl⟩

/-- A step that changes ST runs Fx18. -/
theorem step_st {s t : State} (h : step s = .next t) (hne : t.st ≠ s.st) :
    ∃ w x, fetchWord s = some w ∧ decode w = .instr (.ldToSt x) ∧ t.st = getV s x := by
  obtain ⟨-, ⟨-, rfl⟩ | ⟨w, u, -, -, rfl⟩ | ⟨w, i, hf, hd, he⟩⟩ := step_next h
  · exact absurd rfl hne
  · exact absurd rfl hne
  · obtain ⟨-, -, -, hst, -⟩ := stateIsWrittenOnlyBy _ _ _ he
    obtain ⟨x, rfl⟩ := hst hne
    cases he
    exact ⟨w, x, hf, hd, rfl⟩

/-- Settles O50: only STEP can raise a timer (`timers_le_of_not_step`), and in a STEP only the write of the timer
changes it. -/
theorem timersRiseOnlyWhenWritten : Obligations.TimersRiseOnlyWhenWritten := by
  intro op s
  by_cases hstep : ∃ r, op = .step r
  · obtain ⟨r, rfl⟩ := hstep
    cases hs : s.halt
    case true => simp [perform_snd_of_halted hs]
    obtain ⟨t, ht, hsnd⟩ := exists_step_of_perform hs r
    rw [hsnd]
    refine ⟨fun hlt => ?_, fun hlt => ?_⟩
    · obtain ⟨w, x, hx⟩ := step_dt ht fun he => by simp [he] at hlt
      exact ⟨r, w, x, rfl, hx⟩
    · obtain ⟨w, x, hx⟩ := step_st ht fun he => by simp [he] at hlt
      exact ⟨r, w, x, rfl, hx⟩
  · push Not at hstep
    obtain ⟨hdt, hst⟩ := timers_le_of_not_step hstep s
    exact ⟨fun hlt => absurd hdt (Nat.not_le.mpr hlt), fun hlt => absurd hst (Nat.not_le.mpr hlt)⟩

/-! ### The invariant of every reachable state -/

/-- Settles O14: both memories have the canonical form, and the other fields are numbers. -/
theorem invariantAtReset : Obligations.InvariantAtReset :=
  ⟨⟨Memory.reset_wf, by decide, by decide, rfl⟩, ⟨zeroMemory_wf, by decide, by decide, rfl⟩⟩

/-- Each operation keeps the invariant. -/
theorem perform_keeps_coreInv (op : Op) {s : State} (h : CoreInv s) : CoreInv (perform op s).2 := by
  by_cases hnew : op = .new
  · subst hnew
    obtain ⟨hmem, hpc, hslots, hlatch⟩ := invariantAtReset.2
    exact ⟨hmem, hpc, hslots, hlatch⟩
  cases hs : s.halt
  case true => rwa [perform_snd_of_halted hs hnew]
  obtain ⟨hmem, hpc, hslots, hlatch⟩ := h
  cases op
  case new => exact absurd rfl hnew
  case initCore =>
    rw [perform_initCore_snd hs]
    exact ⟨initWith_wf glyphs s (by decide) hmem, (by decide : (512 : Word).toNat ≤ 4350), hslots, hlatch⟩
  case loadProgram bytes =>
    rw [perform_loadProgram_snd hs]
    have hwf := loadProgram_wf bytes s hmem
    rcases loadProgram_snd bytes s with h | h <;> rw [h] at hwf ⊢
    · exact ⟨hwf, hpc, hslots, hlatch⟩
    · exact ⟨hwf, hpc, hslots, rfl⟩
  case step r =>
    obtain ⟨t, ht, hsnd⟩ := exists_step_of_perform hs r
    obtain ⟨hmem', hpc', hslots', hlatch'⟩ :=
      stepKeepsInvariant { s with rands := r :: s.rands } _ ⟨hmem, hpc, hslots, hlatch⟩ ht
    rw [hsnd]
    exact ⟨hmem', hpc', hslots', hlatch'⟩
  case tickTimers => rw [perform_tickTimers_snd hs]; exact ⟨hmem, hpc, hslots, hlatch⟩
  case setKeys states => rw [perform_setKeys_snd hs]; exact ⟨hmem, hpc, hslots, hlatch⟩
  case display => exact ⟨hmem, hpc, hslots, hlatch⟩

theorem performAll_keeps_coreInv (ops : List Op) {s : State} (h : CoreInv s) : CoreInv (performAll ops s) := by
  induction ops generalizing s with
  | nil => exact h
  | cons op ops ih => exact ih (perform_keeps_coreInv op h)

/-- Settles O15: operation by operation, then by induction on their list from the state after reset. -/
theorem everyOperationKeepsInvariant : Obligations.EveryOperationKeepsInvariant := by
  refine ⟨fun op _ h => perform_keeps_coreInv op h, ?_⟩
  rintro _ ⟨ops, rfl⟩
  exact performAll_keeps_coreInv ops invariantAtReset.1

end Sys2Proof.Proofs
end
